-- ==== Sys2Proof/Word.lean ====
section
/-! DEFINITION. The value types of spec/00_scope.md rule R8: bytes, 16-bit registers and alarm message words. -/

namespace Sys2Proof

/-- A byte: an 8-bit unsigned value, bit 0 the least significant (R8). -/
abbrev Byte := BitVec 8

/-- A register of a decoded payload: a 16-bit unsigned value (R8, R12). The 16-bit `idx`, `plen`, `clen`, `count`
and `aux` fields of response tokens have the same type (R59 to R62). -/
abbrev Reg16 := BitVec 16

/-- A `MsgWord`: one 16-bit entry of the alarm message ROM (R7, R21). -/
abbrev MsgWord := BitVec 16

end Sys2Proof
end

