-- ==== Sys2Proof/Config.lean ====
section
/-! DEFINITION. What is fixed when a DBD instance is built: DOC's constants (spec/00_scope.md rule R6), and the open
parameters of R7 (`BUF_MAX`, `ALARM_MSG`, `MSG_RESERVED`) as one opaque instance, constrained only by what the spec
says of every valid instance (R7, R22, R106, R139). -/

namespace Sys2Proof

/-! ### The constants of R6 -/

/-- `MARKER0`: the first marker byte. -/
@[simp] abbrev Config.marker0 : Byte := 0xD2#8
/-- `MARKER1`: the second marker byte. -/
@[simp] abbrev Config.marker1 : Byte := 0x03#8
/-- `MARKER_LEN`: the marker's length in bytes. -/
@[simp] abbrev Config.markerLen : Nat := 2
/-- `HDR_LEN`: marker and command byte. -/
@[simp] abbrev Config.hdrLen : Nat := Config.markerLen + 1
/-- `SUFFIX_LEN`: the trailing bytes that nothing validates. -/
@[simp] abbrev Config.suffixLen : Nat := 2
/-- `MIN_CAND_LEN`: shorter candidates are discarded. -/
@[simp] abbrev Config.minCandLen : Nat := 3
/-- `MIN_PAYLOAD_LEN`: fewer payload bytes give `EmptyPayload`. -/
@[simp] abbrev Config.minPayloadLen : Nat := 1
/-- `CMD_CFG`: the configuration frame's command byte. -/
@[simp] abbrev Config.cmdCfg : Byte := 0x52#8
/-- `CMD_RT`: the runtime frame's command byte. -/
@[simp] abbrev Config.cmdRt : Byte := 0x7C#8
/-- `REG_BYTES`: bytes per register. -/
@[simp] abbrev Config.regBytes : Nat := 2
/-- `RT_MIN_REGS`: the runtime register floor. -/
@[simp] abbrev Config.rtMinRegs : Nat := 62
/-- `RT_FULL_REGS`: the registers the full protocol defines; it appears only in the meaning of the truncation
warning, and no rule compares a count with it (R114). -/
@[simp] abbrev Config.rtFullRegs : Nat := 66
/-- `ALARM_BASE`: the register index of alarm register 1. -/
@[simp] abbrev Config.alarmBase : Nat := 58
/-- `N_ALARM_REGS`: the number of alarm registers. -/
@[simp] abbrev Config.nAlarmRegs : Nat := 4
/-- `ALARM_BITS`: bits per alarm register, and case indices per register. -/
@[simp] abbrev Config.alarmBits : Nat := 16

/-! ### Lengths that follow from the constants -/

/-- What a frame has beside its payload: header and suffix, 5 bytes (R51, R52). -/
@[simp] abbrev Config.frameOverhead : Nat := Config.hdrLen + Config.suffixLen
/-- The least length of a frame with a payload, 6 bytes (R79, R80). -/
@[simp] abbrev Config.minFrameLen : Nat := Config.frameOverhead + Config.minPayloadLen
/-- The data bytes of an ALARM request, 8 (R56, R57). -/
@[simp] abbrev Config.alarmDataLen : Nat := Config.regBytes * Config.nAlarmRegs
/-- The entries of the alarm ROM, 64 (R21). -/
@[simp] abbrev Config.romSize : Nat := Config.nAlarmRegs * Config.alarmBits
/-- The least `BUF_MAX`, 129: a runtime frame at the register floor (R7, 90_conflicts.md C5). -/
@[simp] abbrev Config.bufLow : Nat := Config.frameOverhead + Config.regBytes * Config.rtMinRegs
/-- The greatest `BUF_MAX`: what the 16-bit counts hold (R7). -/
@[simp] abbrev Config.bufHigh : Nat := 65535

/-! ### The open parameters of R7 -/

/-- The alarm message ROM `ALARM_MSG`: 64 words, the one at address `(r-1)*16 + c` being the entry of register
identifier `r` and case index `c` (R21, R65). The type makes every table total, so a table that is not total cannot
be built at all, which is how R22 and R121 want a malformed one to be met. -/
abbrev AlarmRom := Vector MsgWord Config.romSize

/-- R106: the three entries whose text DOC fixes, under a host's reading of message words. The addresses are those
of `(1, 0)`, `(1, 15)` and `(2, 6)` by R65. No other entry is constrained (R107, R108). -/
def AlarmRom.Conforms (readText : MsgWord → String) (rom : AlarmRom) : Prop :=
  readText rom[(1 - 1) * Config.alarmBits + 0] = "Cell Over Voltage (Stage 1)" ∧
  readText rom[(1 - 1) * Config.alarmBits + 15] = "Discharge Temp Too Low (Stage 2)" ∧
  readText rom[(2 - 1) * Config.alarmBits + 6] = "Excessive Differential Voltage (Stage 1)"

/-- What R139 fixes before the first request: a valid DBD instance. -/
structure Config.Built where
  /-- `BUF_MAX` less its lower bound: the bounds of R7 are those of this type. -/
  bufAbove : Fin (Config.bufHigh + 1 - Config.bufLow)
  /-- `ALARM_MSG`. -/
  alarmMsg : AlarmRom
  /-- `MSG_RESERVED`, the word that stands for DOC's placeholder. -/
  msgReserved : MsgWord
  /-- The host's map from message words to text (R105). It is the host's, not DBD's. -/
  readText : MsgWord → String
  /-- R106 and R139: the table holds the pinned entries. -/
  conforms : AlarmRom.Conforms readText alarmMsg
  /-- R108: the reserved word reads as the placeholder. -/
  reservedText : readText msgReserved = "RESERVED"

/-- Evidence that a valid instance exists, and nothing else: `Config.built` needs a member of its type to be
declarable, and no proof or evaluation can see which one stands behind it. -/
def Config.someBuilt : Config.Built where
  bufAbove := ⟨0, by decide⟩
  alarmMsg := Vector.ofFn fun i => BitVec.ofNat 16 i.val
  msgReserved := 0xFFFF#16
  readText w :=
    if w = 0#16 then "Cell Over Voltage (Stage 1)"
    else if w = 15#16 then "Discharge Temp Too Low (Stage 2)"
    else if w = 22#16 then "Excessive Differential Voltage (Stage 1)"
    else "RESERVED"
  conforms := ⟨rfl, rfl, rfl⟩
  reservedText := rfl

/-- The DBD instance at hand. It has NO BODY: R7 leaves every one of its parts OPEN within the bounds that
`Config.Built` states, so nothing can be proved of it but those bounds. DESIGN CHOICE (log entry 1): safe. -/
opaque Config.built (nonempty : Inhabited Config.Built) : Config.Built

/-- `BUF_MAX`, the most data bytes one request may carry: OPEN, `129 ≤ BUF_MAX ≤ 65535` (R7). -/
def Config.bufMax : Nat := (Config.built ⟨Config.someBuilt⟩).bufAbove.val + Config.bufLow

/-- `ALARM_MSG` as it was loaded when the instance was built (R22): OPEN but for the pinned entries. -/
def Config.alarmMsg : AlarmRom := (Config.built ⟨Config.someBuilt⟩).alarmMsg

/-- `MSG_RESERVED`: OPEN (R7, R108). -/
def Config.msgReserved : MsgWord := (Config.built ⟨Config.someBuilt⟩).msgReserved

/-- The host's map from message words to text: OPEN but for the pinned entries (R105, R106). -/
def Config.readText : MsgWord → String := (Config.built ⟨Config.someBuilt⟩).readText

/-- The lower bound of R7: the byte length of a runtime frame at the register floor. -/
theorem Config.bufMax_ge : 129 ≤ Config.bufMax := Nat.le_add_left _ _

/-- The upper bound of R7: what the 16-bit counts of the tokens can hold. -/
theorem Config.bufMax_le : Config.bufMax ≤ 65535 :=
  Nat.add_le_add_right (Nat.le_of_lt_succ (Config.built ⟨Config.someBuilt⟩).bufAbove.isLt) Config.bufLow

/-- The table the instance was built with holds the pinned entries (R106, R139). -/
theorem Config.alarmMsg_conforms : AlarmRom.Conforms Config.readText Config.alarmMsg :=
  (Config.built ⟨Config.someBuilt⟩).conforms

/-- The reserved word reads as DOC's placeholder (R108). -/
theorem Config.readText_msgReserved : Config.readText Config.msgReserved = "RESERVED" :=
  (Config.built ⟨Config.someBuilt⟩).reservedText

end Sys2Proof
end

