-- ==== Sys2Proof/Syntax.lean ====
section
/-! DEFINITION. The instructions: one constructor per row of spec/opcode_table.json. The four REQ rows are the
operations a request selects by its header byte (spec/30_encoding.md R55, R66); the three WIRE_FRAME rows are the
frames an EXTRACT request finds in its buffer, told apart by their command byte (R53, spec/40_frame_extractor.md
R81). An operand is the instruction's own data, with every bit kept. -/

namespace Sys2Proof

/-- One operation of DBD with its operands. -/
inductive Instr where
  /-- `EXTRACT` (R72): `buf` is a raw notification buffer. -/
  | extract (buf : List Byte)
  /-- `UNPACK` (R95): `payload` is a frame's payload. -/
  | unpack (payload : List Byte)
  /-- `ALARM` (R109): `data` is four big-endian alarm registers when it has 8 bytes, and illegal otherwise. -/
  | alarm (data : List Byte)
  /-- `RT_ALARM` (R113): `payload` is a runtime frame's payload. -/
  | rtAlarm (payload : List Byte)
  /-- `FRAME_CFG` (R81): a candidate with command byte `0x52`; `tail` is every byte after the command byte. -/
  | frameCfg (tail : List Byte)
  /-- `FRAME_RT` (R81): a candidate with command byte `0x7C`; `tail` is every byte after the command byte. -/
  | frameRt (tail : List Byte)
  /-- `FRAME_UNKNOWN` (R81): a candidate with any other command byte. -/
  | frameUnknown (cmd : Byte) (tail : List Byte)
  deriving DecidableEq, Repr

/-- The operation a request selects: the 2-bit `op` field of its header byte (R55, R66). -/
inductive Op where
  /-- `0b00`. -/
  | extract
  /-- `0b01`. -/
  | unpack
  /-- `0b10`. -/
  | alarm
  /-- `0b11`. -/
  | rtAlarm
  deriving DecidableEq, Repr

/-- Where an instruction's bytes stand: a request on the request channel (R54), or a wire frame inside the buffer of
an EXTRACT request (R51). Both encodings have 8-bit codes that overlap, so the place tells them apart. -/
inductive Space where
  /-- A request: header byte, then data bytes. -/
  | request
  /-- A wire frame: marker, command byte, then the rest of the candidate. -/
  | frame
  deriving DecidableEq, Repr

/-- The encoding an instruction belongs to (the `format` column of the opcode table). -/
def Instr.space : Instr → Space
  | .extract _ => .request
  | .unpack _ => .request
  | .alarm _ => .request
  | .rtAlarm _ => .request
  | .frameCfg _ => .frame
  | .frameRt _ => .frame
  | .frameUnknown _ _ => .frame

/-- The instruction is a request (a REQ row of the opcode table). -/
def Instr.isRequest (i : Instr) : Bool := i.space == .request

end Sys2Proof
end

