-- ==== Sys2Proof/WellFormed.lean ====
section
/-! DEFINITION. Which instructions have a legal encoding: the operand table of spec/30_encoding.md R56, and for a wire
frame the layout of R51 and R52. -/

namespace Sys2Proof

/-- The byte pair `MARKER0 MARKER1` occurs in the bytes (R13). -/
def hasMarker : List Byte → Bool
  | a :: b :: rest => (a == Config.marker0 && b == Config.marker1) || hasMarker (b :: rest)
  | _ => false

/-- The bytes of a request's data fit the request buffer (R56). -/
def fitsBuffer (data : List Byte) : Bool := decide (data.length ≤ Config.bufMax)

/-- A frame's bytes after its marker. A marker among them would end the frame there (R52, R89), so a frame has none;
and the whole frame lies in one request buffer. -/
def frameBody (cmd : Byte) (tail : List Byte) : Bool :=
  !hasMarker (cmd :: tail) && decide (tail.length + Config.hdrLen ≤ Config.bufMax)

/-- The instruction has a legal encoding: R56 for a request, R51 to R53 for a wire frame. -/
def Instr.wellFormed : Instr → Bool
  | .extract buf => fitsBuffer buf
  | .unpack payload => fitsBuffer payload
  | .alarm data => decide (data.length = Config.alarmDataLen)
  | .rtAlarm payload => fitsBuffer payload
  | .frameCfg tail => frameBody Config.cmdCfg tail
  | .frameRt tail => frameBody Config.cmdRt tail
  | .frameUnknown cmd tail =>
    cmd != Config.cmdCfg && cmd != Config.cmdRt && frameBody cmd tail

end Sys2Proof
end

