-- ==== Sys2Proof/Decode.lean ====
section
/-! DEFINITION. Decoding, total on any bytes and rejecting by name: requests by their header byte (spec/30_encoding.md
R55, R66, R67) and wire frames by marker, command byte and length (R51 to R53); and after it the encoder, written
from the same tables. -/

namespace Sys2Proof

/-! ### Requests -/

/-- Why a request's bytes select no operation (R67). The machine answers such a request with a status (R119, R120);
neither reason ever stops it. -/
inductive RequestError where
  /-- Header bits [7:2] are not all zero: `BadRequest`. -/
  | reservedHeader
  /-- More than `BUF_MAX` data bytes: `Overflow`. -/
  | overflow
  deriving DecidableEq, Repr

/-- Header bits [1:0], the `op` field. -/
def headerOp (h : Byte) : Op :=
  match h.getLsbD 1, h.getLsbD 0 with
  | false, false => .extract
  | false, true => .unpack
  | true, false => .alarm
  | true, true => .rtAlarm

/-- Header bits [7:2], which must be zero (R55). -/
def headerReserved (h : Byte) : BitVec 6 := h.extractLsb' 2 6

/-- The operation with its data bytes as operand (R56). -/
def instrOf (op : Op) (data : List Byte) : Instr :=
  match op with
  | .extract => .extract data
  | .unpack => .unpack data
  | .alarm => .alarm data
  | .rtAlarm => .rtAlarm data

/-- A request of header byte `h` and data bytes `data`, with the first two priorities of R122. An ALARM request of
the wrong length is decoded and raises `BadRequest` itself (R109), which is the third. -/
def decodeRequest (h : Byte) (data : List Byte) : Except RequestError Instr :=
  if headerReserved h != 0#6 then .error .reservedHeader
  else if Config.bufMax < data.length then .error .overflow
  else .ok (instrOf (headerOp h) data)

/-! ### Wire frames -/

/-- Why bytes are not one surviving candidate, the unit a wire-frame row stands for. -/
inductive FrameError where
  /-- The first two bytes are not the marker (R51, R75). -/
  | noMarker
  /-- A candidate of fewer than `MIN_CAND_LEN` bytes, which is discarded (R76). -/
  | noCommand
  /-- A marker after the first one: the bytes are more than one candidate (R52, R89). -/
  | innerMarker
  /-- Longer than any request buffer (R120). -/
  | tooLong
  deriving DecidableEq, Repr

/-- The row of the opcode table for a candidate's command byte (R53): `FRAME_UNKNOWN` only when neither other row
matches. -/
def frameOf (cmd : Byte) (tail : List Byte) : Instr :=
  if cmd = Config.cmdCfg then .frameCfg tail
  else if cmd = Config.cmdRt then .frameRt tail
  else .frameUnknown cmd tail

/-- A candidate's bytes, marker included (R51). -/
def decodeFrame (bytes : List Byte) : Except FrameError Instr :=
  match bytes with
  | a :: b :: rest =>
    if a = Config.marker0 ∧ b = Config.marker1 then
      match rest with
      | cmd :: tail =>
        if hasMarker (cmd :: tail) then .error .innerMarker
        else if Config.bufMax < tail.length + Config.hdrLen then .error .tooLong
        else .ok (frameOf cmd tail)
      | [] => .error .noCommand
    else .error .noMarker
  | _ => .error .noMarker

/-- The instruction that bytes stand for in the place they are met, if any. -/
def decodeIn (space : Space) (bytes : List Byte) : Option Instr :=
  match space, bytes with
  | .request, h :: data => (decodeRequest h data).toOption
  | .request, [] => none
  | .frame, bytes => (decodeFrame bytes).toOption

/-! ### The encoder -/

/-- The header byte of an operation: its code in bits [1:0], zero above (R55, R66). -/
def Op.header : Op → Byte
  | .extract => 0x00#8
  | .unpack => 0x01#8
  | .alarm => 0x02#8
  | .rtAlarm => 0x03#8

/-- The bytes of a candidate with command byte `cmd` (R51). -/
def wireFrame (cmd : Byte) (tail : List Byte) : List Byte :=
  Config.marker0 :: Config.marker1 :: cmd :: tail

/-- The bytes of an instruction. -/
def encode : Instr → List Byte
  | .extract buf => Op.extract.header :: buf
  | .unpack payload => Op.unpack.header :: payload
  | .alarm data => Op.alarm.header :: data
  | .rtAlarm payload => Op.rtAlarm.header :: payload
  | .frameCfg tail => wireFrame Config.cmdCfg tail
  | .frameRt tail => wireFrame Config.cmdRt tail
  | .frameUnknown cmd tail => wireFrame cmd tail

/-! ### Words of the opcode table -/

/-- The operand bytes laid behind an opcode-table header byte: the shortest operand R56 allows the operation, all
zero. That is eight bytes for ALARM and none for the other three. -/
def zeroOperand : Op → List Byte
  | .extract => []
  | .unpack => []
  | .alarm => List.replicate Config.alarmDataLen 0#8
  | .rtAlarm => []

/-- A table word that is a request's header byte has bits [7:2] zero; any other is a wire frame's command byte
(log entry 2). -/
def tableWordIsHeader (b : Byte) : Bool := headerReserved b == 0#6

/-- The candidate laid around an opcode-table command byte: one zero payload byte and a zero suffix. -/
def tableFrame (cmd : Byte) : List Byte :=
  wireFrame cmd (List.replicate (Config.minPayloadLen + Config.suffixLen) 0#8)

/-- The instruction decoded from an opcode-table row's 8-bit word `w`, its operand bytes zero. A header byte is
decoded as a request, a command byte inside a candidate. -/
def decodeTableWord (nbits w : Nat) : Option Instr :=
  if nbits = 8 ∧ w < 256 then
    let b : Byte := BitVec.ofNat 8 w
    if tableWordIsHeader b then (decodeRequest b (zeroOperand (headerOp b))).toOption
    else (decodeFrame (tableFrame b)).toOption
  else none

end Sys2Proof
end

