-- ==== Sys2Proof/Machine/State.lean ====
section
/-! DEFINITION. The state of DBD as plain data (spec/10_state.md R15 to R32), the host's side of the two channels, the
reasons a step could stop, and the state after reset (R31). -/

namespace Sys2Proof.Machine

/-! ### The kinds of things the state holds -/

/-- `mode`: the request phase (R23). -/
inductive Mode where
  /-- Between requests; a header may be accepted. -/
  | idle
  /-- Taking the request's data bytes. -/
  | load
  /-- The request is complete and its operation is about to run. -/
  | scan
  /-- The response is being emitted, `END` last. -/
  | emitEnd
  deriving DecidableEq, Repr

/-- `det_phase`: whether the marker detector has seen a marker (R23, R26). -/
inductive DetPhase where
  /-- Before the first marker. -/
  | prefixBytes
  /-- A candidate is open. -/
  | inCand
  deriving DecidableEq, Repr

/-- The status codes of spec/60_exceptions.md R116. The reserved codes 7 to 255 are never emitted, so no constructor
stands for them. -/
inductive Status where
  | ok
  | noFramesFound
  | emptyPayload
  | unknownCommand
  | insufficientData
  | badRequest
  | overflow
  deriving DecidableEq, Repr

/-- The kind of an accepted frame (R53). -/
inductive FrameKind where
  | cfg
  | rt
  deriving DecidableEq, Repr

/-- A response token with the fields of R59 to R62. -/
inductive Token where
  /-- FRAME (R59): one accepted frame. -/
  | frame (idx : Reg16) (cmd : Byte) (kind : FrameKind) (plen : Reg16) (payload : List Byte) (sfx0 sfx1 : Byte)
  /-- CAND_ERR (R60): one surviving candidate that failed. -/
  | candErr (idx : Reg16) (status : Status) (cmd : Byte) (clen : Reg16)
  /-- REG (R61): one register. -/
  | reg (idx value : Reg16)
  /-- ALARM_RAW (R61): the four alarm registers of a runtime payload. -/
  | alarmRaw (v1 v2 v3 v4 : Reg16)
  /-- ALARM_REC (R61): one alarm record. -/
  | alarmRec (registerId bitIndex caseIndex : Byte) (msg : MsgWord)
  /-- END (R62): the last token of every response. -/
  | endTok (status : Status) (count aux : Reg16) (flags : Byte)
  deriving DecidableEq, Repr

/-- One transfer on the request channel: a byte and its `last` bit (R54). -/
structure Xfer where
  byte : Byte
  last : Bool
  deriving DecidableEq, Repr

/-- One move of the host. The list of moves in the state says what the host does and in which order the transfers of
the two channels and a reset complete. -/
inductive HostMove where
  /-- Send one byte on the request channel; it completes when DBD accepts the byte. -/
  | send (x : Xfer)
  /-- Consume the token in `out`; it completes when there is one. -/
  | take
  /-- Assert reset (R136). -/
  | reset
  /-- Do nothing while DBD makes one step. -/
  | wait
  deriving DecidableEq, Repr

/-- The request buffer (R33): byte `i` of the list is `buf[i]`, so a list of bytes is the canonical form of this
memory. -/
abbrev Memory := List Byte

/-- The request buffer holds at most `BUF_MAX` bytes (R23, R33). -/
def Memory.wf (m : Memory) : Bool := decide (m.length ≤ Config.bufMax)

/-! ### Why a step could stop -/

/-- Reads that spec/20_memory.md R34 and spec/42_alarm_decoder.md R104 call unreachable. Stopping there is SAFE: no
behaviour of DBD is claimed past such a read, and no state a run reaches makes one. -/
inductive Fault where
  /-- Raised by `memRead` and `regRead` for a position outside the byte sequence or register array (R34). Safe. -/
  | readRange
  /-- Raised by `romRead` for a register identifier outside 1..4 or a case index outside 0..15: DOC's "programming
  invariant violation" (R104, R121). Safe. -/
  | romRange
  deriving DecidableEq, Repr

/-- The refusals of a step. -/
inductive Refusal where
  /-- The instruction of that mnemonic has no meaning in this model; raised by `exec` only. Safe. -/
  | notModelled (mnemonic : String)
  deriving DecidableEq, Repr

/-! ### The state -/

/-- Everything the spec gives DBD: the working elements of R23 in the table's order, then the ROM of R21; and after
them what the model adds: the response being emitted (R10, R58) and the host (R45). -/
@[ext]
structure State where
  /-- The request phase. -/
  mode : Mode
  /-- The op code of the current request, 2 bits. -/
  op : Op
  /-- The header's reserved bits were not all zero. -/
  hdrBad : Bool
  /-- The request's data bytes. -/
  dbuf : Memory
  /-- Data bytes received, saturating at `BUF_MAX + 1`. -/
  nrecv : Nat
  /-- More than `BUF_MAX` data bytes were received. -/
  ovf : Bool
  /-- The scan position in `dbuf`. -/
  pos : Nat
  /-- Marker detector: before or after the first marker. -/
  detPhase : DetPhase
  /-- Marker detector: the previous byte was `0xD2` and is not yet classified. -/
  detPend : Bool
  /-- The bytes of the open candidate, marker included. -/
  cand : List Byte
  /-- Surviving candidates emitted so far. -/
  ncand : Reg16
  /-- Alarm records emitted so far. -/
  nrec : Reg16
  /-- The status for the pending `END`, 8 bits as a code. -/
  endStatus : Status
  /-- The `aux` field for the pending `END`. -/
  endAux : Reg16
  /-- The output holding register of the response channel. -/
  out : Option Token
  /-- `ALARM_MSG`: it persists between requests and nothing writes it (R15, R21, R22). -/
  rom : AlarmRom
  /-- MODEL: the tokens of the current response that have not reached `out` yet, oldest first. -/
  resp : List Token
  /-- MODEL: the host's moves still to come, the next one first. -/
  host : List HostMove
  /-- MODEL: the tokens the host has consumed, oldest first. -/
  delivered : List Token
  deriving DecidableEq, Repr

/-- The state right after reset: R31 with the values of R23's table, `ALARM_MSG` as it was built; nothing emitted and
no host move yet. -/
def State.reset : State where
  mode := .idle
  op := .extract
  hdrBad := false
  dbuf := []
  nrecv := 0
  ovf := false
  pos := 0
  detPhase := .prefixBytes
  detPend := false
  cand := []
  ncand := 0#16
  nrec := 0#16
  endStatus := .ok
  endAux := 0#16
  out := none
  rom := Config.alarmMsg
  resp := []
  host := []
  delivered := []

end Sys2Proof.Machine
end

