-- ==== Sys2Proof/Machine/Operands.lean ====
section
/-! DEFINITION. Operand forms: slices (spec/00_scope.md R9), big-endian assembly (spec/20_memory.md R36,
spec/30_encoding.md R63), the guarded reads of the index spaces (R33, R34) and the ROM address (R65). -/

namespace Sys2Proof.Machine

/-- `s[a..b)`: the bytes at positions `a ≤ i < b`, bounds clipped to the sequence, empty when `b ≤ a` (R9). -/
def slice (s : List Byte) (a b : Nat) : List Byte := (s.take b).drop a

/-- Two bytes as a register, the first in the high half (R36, R63). -/
def be16 (hi lo : Byte) : Reg16 := hi ++ lo

/-- `MemRead(buf, i, 1)` (R10, R34): the byte at position `i`. -/
def memRead (buf : Memory) (i : Nat) : Except Fault Byte :=
  match buf[i]? with
  | some b => .ok b
  | none => .error .readRange

/-- Register `k` of a payload: the bytes at `2k` and `2k+1` (R36, R91). -/
def readReg (payload : Memory) (k : Nat) : Except Fault Reg16 := do
  let hi ← memRead payload (Config.regBytes * k)
  let lo ← memRead payload (Config.regBytes * k + 1)
  return be16 hi lo

/-- Run `f` over the list in order and join the lists it gives. -/
def gather {α β : Type} (f : α → Except Fault (List β)) : List α → Except Fault (List β)
  | [] => .ok []
  | a :: as => do
    let xs ← f a
    let ys ← gather f as
    return xs ++ ys

/-- `regs(P)` as RU computes it: registers `0 .. ⌊n/2⌋ - 1` in order (R91). An odd last byte is in none (R93). -/
def readRegs (payload : Memory) : Except Fault (List Reg16) :=
  gather (fun k => do let r ← readReg payload k; return [r]) (List.range (payload.length / Config.regBytes))

/-- A read of the register array (R33): register `k`. -/
def regRead (regs : List Reg16) (k : Nat) : Except Fault Reg16 :=
  match regs[k]? with
  | some v => .ok v
  | none => .error .readRange

/-- DOC's read "with bounds-guarded default 0" of a runtime register (R111). -/
def regReadOrZero (regs : List Reg16) (k : Nat) : Reg16 := if k < regs.length then regs.getD k 0#16 else 0#16

/-- The alarm case index of a bit: `15 - bit_index` (R64, R99). -/
def caseIndex (bit : Nat) : Nat := Config.alarmBits - 1 - bit

/-- `addr = (r - 1)·16 + c`, the ROM address of register identifier `r` and case index `c` (R21, R65). -/
def romAddr (r c : Nat) : Nat := (r - 1) * Config.alarmBits + c

/-- `RomRead(r, c)` (R10, R105): `ALARM_MSG(r, c)`, defined for `r` in 1..4 and `c` in 0..15. -/
def romRead (rom : AlarmRom) (r c : Nat) : Except Fault MsgWord :=
  if 1 ≤ r ∧ r ≤ Config.nAlarmRegs ∧ c < Config.alarmBits then
    match rom[romAddr r c]? with
    | some w => .ok w
    | none => .error .romRange
  else .error .romRange

end Sys2Proof.Machine
end

