-- ==== Sys2Proof/Machine/Flags.lean ====
section
/-! DEFINITION. The one flag DBD has: `trunc_warn`, bit 0 of `END.flags` (spec/10_state.md R19, spec/42_alarm_decoder.md
R114). -/

namespace Sys2Proof.Machine

/-- `END.flags` with bit 0 the truncation warning and bits 7..1 zero (R19). -/
def endFlags (truncWarn : Bool) : Byte := if truncWarn then 0x01#8 else 0x00#8

/-- The truncation warning of a runtime payload of `n` registers, for `n` at or above the floor (R114). -/
def truncWarn (n : Nat) : Bool := n == Config.rtMinRegs

end Sys2Proof.Machine
end

