-- ==== Sys2Proof/Machine/Tokens.lean ====
section
/-! DEFINITION. The serialization of response tokens (spec/30_encoding.md R58 to R62): a tag byte, then the fields,
multi-byte fields big-endian (spec/20_memory.md R39); and the reading of one token back from bytes. -/

namespace Sys2Proof.Machine

/-- The numeric code of a status (R116). -/
def Status.code : Status → Byte
  | .ok => 0x00#8
  | .noFramesFound => 0x01#8
  | .emptyPayload => 0x02#8
  | .unknownCommand => 0x03#8
  | .insufficientData => 0x04#8
  | .badRequest => 0x05#8
  | .overflow => 0x06#8

/-- The status of a code; the reserved codes 7 to 255 stand for none (R116). -/
def Status.ofCode (c : Byte) : Option Status :=
  [Status.ok, .noFramesFound, .emptyPayload, .unknownCommand, .insufficientData, .badRequest, .overflow].find?
    fun s => s.code == c

/-- The `kind` code of a frame (R53). -/
def FrameKind.code : FrameKind → Byte
  | .cfg => 0x00#8
  | .rt => 0x01#8

/-- The kind of a code; the reserved values `0x02` to `0xFF` stand for none (R67). -/
def FrameKind.ofCode (c : Byte) : Option FrameKind :=
  [FrameKind.cfg, .rt].find? fun k => k.code == c

/-- A 16-bit field, high byte first (R39). -/
def be16Bytes (v : Reg16) : List Byte := [v.extractLsb' 8 8, v.extractLsb' 0 8]

/-- The bytes of a token. -/
def Token.bytes : Token → List Byte
  | .frame idx cmd kind plen payload sfx0 sfx1 =>
    [0x01#8] ++ be16Bytes idx ++ [cmd, kind.code] ++ be16Bytes plen ++ payload ++ [sfx0, sfx1]
  | .candErr idx status cmd clen => [0x02#8] ++ be16Bytes idx ++ [status.code, cmd] ++ be16Bytes clen
  | .reg idx value => [0x03#8] ++ be16Bytes idx ++ be16Bytes value
  | .alarmRaw v1 v2 v3 v4 => [0x04#8] ++ be16Bytes v1 ++ be16Bytes v2 ++ be16Bytes v3 ++ be16Bytes v4
  | .alarmRec registerId bitIndex caseIndex msg => [0x05#8, registerId, bitIndex, caseIndex] ++ be16Bytes msg
  | .endTok status count aux flags => [0x0F#8, status.code] ++ be16Bytes count ++ be16Bytes aux ++ [flags]

/-- The bytes of a token list, in order. -/
def tokensBytes (ts : List Token) : List Byte := ts.flatMap Token.bytes

/-- One token read from the front of a byte string, with the bytes behind it; none for a reserved tag, status or
kind, or too few bytes. The host's side of R58 to R62. -/
def readToken (bytes : List Byte) : Option (Token × List Byte) :=
  match bytes with
  | tag :: rest =>
    if tag = 0x01#8 then
      match rest with
      | i1 :: i0 :: cmd :: k :: p1 :: p0 :: body =>
        let n := (be16 p1 p0).toNat
        match FrameKind.ofCode k, body.drop n with
        | some kind, s0 :: s1 :: behind =>
          some (.frame (be16 i1 i0) cmd kind (be16 p1 p0) (body.take n) s0 s1, behind)
        | _, _ => none
      | _ => none
    else if tag = 0x02#8 then
      match rest with
      | i1 :: i0 :: st :: cmd :: n1 :: n0 :: behind =>
        (Status.ofCode st).map fun s => (.candErr (be16 i1 i0) s cmd (be16 n1 n0), behind)
      | _ => none
    else if tag = 0x03#8 then
      match rest with
      | i1 :: i0 :: v1 :: v0 :: behind => some (.reg (be16 i1 i0) (be16 v1 v0), behind)
      | _ => none
    else if tag = 0x04#8 then
      match rest with
      | a1 :: a0 :: b1 :: b0 :: c1 :: c0 :: d1 :: d0 :: behind =>
        some (.alarmRaw (be16 a1 a0) (be16 b1 b0) (be16 c1 c0) (be16 d1 d0), behind)
      | _ => none
    else if tag = 0x05#8 then
      match rest with
      | r :: b :: c :: m1 :: m0 :: behind => some (.alarmRec r b c (be16 m1 m0), behind)
      | _ => none
    else if tag = 0x0F#8 then
      match rest with
      | st :: c1 :: c0 :: a1 :: a0 :: f :: behind =>
        (Status.ofCode st).map fun s => (.endTok s (be16 c1 c0) (be16 a1 a0) f, behind)
      | _ => none
    else none
  | [] => none

end Sys2Proof.Machine
end

