-- ==== Sys2Proof/Machine/Ops.lean ====
section
/-! DEFINITION. The operations every meaning shares: emitting a token (spec/00_scope.md R10), ending a request with a
status, which is what DBD has in place of taking an exception (spec/60_exceptions.md R125), going back to IDLE (R126),
and the clearing of the working state (R24, R136). -/

namespace Sys2Proof.Machine

/-- A meaning's outcome. -/
abbrev Result := Host.Outcome State Fault Refusal

/-- A computation that could meet an out-of-range read, as the outcome of a step. -/
def outcomeOf : Except Fault State → Result
  | .ok s => .next s
  | .error f => .fault f

/-- `emit T`: append token `T` to the response of the current request (R10). -/
def State.emit (s : State) (t : Token) : State := { s with resp := s.resp ++ [t] }

/-- `emit T` for each token of a list, in order. -/
def State.emitAll (s : State) (ts : List Token) : State := { s with resp := s.resp ++ ts }

/-- The end of SCAN (R24): the status and aux of the pending `END` are set, the `END` token is the last of the
response, and the phase becomes EMIT_END. -/
def State.endWith (s : State) (status : Status) (count aux : Reg16) (flags : Byte) : State :=
  { s with
    endStatus := status
    endAux := aux
    resp := s.resp ++ [.endTok status count aux flags]
    mode := .emitEnd }

/-- `raise S(info)` (R10, R125): the request ends with `END(S)`, whose count and flags are zero (R62), and nothing more
is emitted. It saves nothing, masks nothing and changes no mode but the phase. Every request-level status other than
OK is raised here. -/
def State.raise (s : State) (status : Status) (aux : Reg16) : State :=
  s.endWith status 0#16 aux (endFlags false)

/-- The status of a request that selects no operation (R119, R120). -/
def rejectStatus : RequestError → Status
  | .reservedHeader => .badRequest
  | .overflow => .overflow

/-- R24: when `hdr_bad` or `ovf` is set, SCAN emits nothing and the response is the `END` alone. -/
def State.rejectRequest (s : State) (e : RequestError) : State := s.raise (rejectStatus e) 0#16

/-- Every working element of R23 at its reset value (R31), with no response in progress. The ROM keeps its contents
(R22), and the host's side is not DBD's to change. -/
def State.clearWork (s : State) : State :=
  { State.reset with rom := s.rom, host := s.host, delivered := s.delivered }

/-- SCAN has walked `n` data bytes (R17). -/
def State.walked (s : State) (n : Nat) : State := { s with pos := s.pos + n }

/-- What `emit` does to `out` when `out` is empty, and the return to IDLE behind `END` (R24, R25, R126): the oldest
token of the response goes to `out`. While `out` is full nothing changes. -/
def State.drain (s : State) : State :=
  match s.out, s.resp with
  | some _, _ => s
  | none, [] => { s with mode := .idle }
  | none, [t] => { s with out := some t, resp := [], mode := .idle }
  | none, t :: t' :: ts => { s with out := some t, resp := t' :: ts }

end Sys2Proof.Machine
end

