-- ==== Sys2Proof/Machine/Channel.lean ====
section
/-! DEFINITION. The two channels and reset: accepting a header and data bytes (spec/10_state.md R24, spec/30_encoding.md
R54, R55), the host's consumption of a token (R25), reset (spec/70_reset_and_hazards.md R136, R137), and the request
that LOAD has gathered, read as an instruction. -/

namespace Sys2Proof.Machine

/-- DBD takes a byte of the request channel: a header in IDLE once `out` is empty, a data byte in LOAD (R24, R55;
log entry 5). -/
def State.accepts (s : State) : Bool :=
  match s.mode with
  | .idle => s.out.isNone
  | .load => true
  | .scan => false
  | .emitEnd => false

/-- The phase after a byte of the request: SCAN behind the byte marked last (R24). -/
def phaseAfter (last : Bool) : Mode := if last then .scan else .load

/-- R24: accept a header. It sets `op` and `hdr_bad` and clears every other working element. -/
def State.acceptHeader (s : State) (x : Xfer) : State :=
  { s.clearWork with
    op := headerOp x.byte
    hdrBad := headerReserved x.byte != 0#6
    mode := phaseAfter x.last }

/-- R24: take a data byte. Past `BUF_MAX` bytes it sets `ovf` and is dropped (R120), and after a bad header it is
counted and dropped (R119; log entry 6). -/
def State.acceptData (s : State) (x : Xfer) : State :=
  if Config.bufMax ≤ s.nrecv then
    { s with ovf := true, nrecv := Config.bufMax + 1, mode := phaseAfter x.last }
  else if s.hdrBad then
    { s with nrecv := s.nrecv + 1, mode := phaseAfter x.last }
  else
    { s with dbuf := s.dbuf ++ [x.byte], nrecv := s.nrecv + 1, mode := phaseAfter x.last }

/-- A transfer on the request channel, when `accepts` holds. -/
def State.acceptXfer (s : State) (x : Xfer) : State :=
  match s.mode with
  | .load => s.acceptData x
  | .idle => s.acceptHeader x
  | .scan => s
  | .emitEnd => s

/-- The host consumes the token `t`, which empties `out` (R25). -/
def State.hostTake (s : State) (t : Token) : State :=
  { s with out := none, delivered := s.delivered ++ [t] }

/-- Reset (R136, R137): every working element to its reset value, the request in progress and the token in `out`
dropped. Tokens the host has consumed stand. -/
def State.assertReset (s : State) : State := s.clearWork

/-- The instruction of the request that LOAD has gathered, by the priority of R122. -/
def fetch (s : State) : Except RequestError Instr :=
  if s.hdrBad then .error .reservedHeader
  else if s.ovf then .error .overflow
  else .ok (instrOf s.op s.dbuf)

end Sys2Proof.Machine
end

