-- ==== Sys2Proof/Machine/Alarm.lean ====
section
/-! DEFINITION. The alarm decoder and the runtime alarm tap (spec/42_alarm_decoder.md): the lane loop of R98, ALARM and
RT_ALARM. -/

namespace Sys2Proof.Machine

/-- One lane of R98's inner loop: bit `b` of register `r`, whose value is `v`. A set bit gives one ALARM_REC with the
inverted index and the ROM's word, reserved or not (R99, R100); a clear bit gives nothing. -/
def alarmLane (rom : AlarmRom) (r : Nat) (v : Reg16) (b : Nat) : Except Fault (List Token) :=
  if v.getLsbD b then do
    let msg ← romRead rom r (caseIndex b)
    return [.alarmRec (BitVec.ofNat 8 r) (BitVec.ofNat 8 b) (BitVec.ofNat 8 (caseIndex b)) msg]
  else .ok []

/-- `alarms(v1, v2, v3, v4)` as AD runs it: ascending register identifier, then ascending bit index (R98, R101). -/
def decodeAlarms (rom : AlarmRom) (v1 v2 v3 v4 : Reg16) : Except Fault (List Token) :=
  gather (fun rv => gather (alarmLane rom rv.1 rv.2) (List.range Config.alarmBits))
    [(1, v1), (2, v2), (3, v3), (4, v4)]

/-- `for a in A: emit ALARM_REC(a)`: each record counts one in `nrec` (R23). -/
def State.emitRecords (s : State) (recs : List Token) : State :=
  { s.emitAll recs with nrec := s.nrec + BitVec.ofNat 16 recs.length }

/-- ALARM (R109): data of any length but 8 raises `BadRequest` (R57, R119); eight bytes are the four alarm registers. -/
def execAlarm (data : List Byte) (s : State) : Result :=
  if data.length = Config.alarmDataLen then
    outcomeOf (do
      let regs ← readRegs data
      let v1 ← regRead regs 0
      let v2 ← regRead regs 1
      let v3 ← regRead regs 2
      let v4 ← regRead regs 3
      let recs ← decodeAlarms s.rom v1 v2 v3 v4
      let t := (s.walked data.length).emitRecords recs
      return t.endWith .ok t.nrec 0#16 (endFlags false))
  else .next (s.raise .badRequest 0#16)

/-- Alarm register `r` of a runtime payload's registers: register `ALARM_BASE + r - 1`, read with the guard (R111). -/
def alarmReg (regs : List Reg16) (r : Nat) : Reg16 := regReadOrZero regs (Config.alarmBase + r - 1)

/-- RT_ALARM (R113): below the floor of 62 registers it raises `InsufficientData` with the count (R110); otherwise
ALARM_RAW, the records, and `END` with the count of registers in `aux` and the truncation warning (R112, R114). -/
def execRtAlarm (payload : List Byte) (s : State) : Result :=
  outcomeOf (do
    let regs ← readRegs payload
    let n := regs.length
    let t := s.walked payload.length
    if n < Config.rtMinRegs then
      return t.raise .insufficientData (BitVec.ofNat 16 n)
    else
      let v1 := alarmReg regs 1
      let v2 := alarmReg regs 2
      let v3 := alarmReg regs 3
      let v4 := alarmReg regs 4
      let recs ← decodeAlarms s.rom v1 v2 v3 v4
      let u := (t.emit (.alarmRaw v1 v2 v3 v4)).emitRecords recs
      return u.endWith .ok u.nrec (BitVec.ofNat 16 n) (endFlags (truncWarn n)))

end Sys2Proof.Machine
end

