-- ==== Sys2Proof/Machine/Extract.lean ====
section
/-! DEFINITION. The frame extractor (spec/40_frame_extractor.md): the byte-serial marker detector of R85 over the
state of R23, the body of R72's loop for one candidate, EXTRACT, and the three wire-frame rows as the classification
of one candidate. -/

namespace Sys2Proof.Machine

/-- The kind of a command byte, if it is a known one (R53). -/
def kindOf (cmd : Byte) : Option FrameKind :=
  if cmd = Config.cmdCfg then some .cfg
  else if cmd = Config.cmdRt then some .rt
  else none

/-- `classify(i, c)`: the body of R72's loop. `EmptyPayload` is tested before the command byte (R80, R123); a known
command byte gives FRAME whatever the payload length (R81, R82) and whatever the suffix (R88). -/
def classify (i : Reg16) (c : List Byte) (s : State) : Except Fault State := do
  let n := c.length
  let cmd ← memRead c Config.markerLen
  if n < Config.minFrameLen then
    return s.emit (.candErr i .emptyPayload cmd (BitVec.ofNat 16 n))
  else
    match kindOf cmd with
    | some kind => do
      let sfx0 ← memRead c (n - Config.suffixLen)
      let sfx1 ← memRead c (n - Config.suffixLen + 1)
      return s.emit
        (.frame i cmd kind (BitVec.ofNat 16 (n - Config.frameOverhead))
          (slice c Config.hdrLen (n - Config.suffixLen)) sfx0 sfx1)
    | none => return s.emit (.candErr i .unknownCommand cmd (BitVec.ofNat 16 n))

/-- `close(c)` (R85): a candidate of fewer than `MIN_CAND_LEN` bytes is discarded without a token (R76); any other is
classified under the next index. -/
def closeCand (c : List Byte) (s : State) : Except Fault State :=
  if Config.minCandLen ≤ c.length then do
    let t ← classify s.ncand c s
    return { t with ncand := s.ncand + 1#16 }
  else .ok s

/-- `push(x)` (R85): a byte of the open candidate; bytes before the first marker are dropped (R75). -/
def pushByte (x : Byte) (s : State) : State :=
  match s.detPhase with
  | .inCand => { s with cand := s.cand ++ [x] }
  | .prefixBytes => s

/-- `open_marker()` (R85). -/
def openMarker (s : State) : Except Fault State := do
  let t ← match s.detPhase with
    | .inCand => closeCand s.cand s
    | .prefixBytes => .ok s
  return { t with detPhase := .inCand, cand := [Config.marker0, Config.marker1] }

/-- `step(b)` (R85) after `pos` has moved on: what the detector does with one byte. -/
def detect (b : Byte) (s : State) : Except Fault State :=
  if s.detPend then
    if b = Config.marker1 then openMarker { s with detPend := false }
    else if b = Config.marker0 then .ok { pushByte Config.marker0 s with detPend := true }
    else .ok (pushByte b { pushByte Config.marker0 s with detPend := false })
  else if b = Config.marker0 then .ok { s with detPend := true }
  else .ok (pushByte b s)

/-- SCAN feeds `buf[pos]` to the detector, `k` times (R85). -/
def scanBytes (buf : Memory) : Nat → State → Except Fault State
  | 0, s => .ok s
  | k + 1, s => do
    let b ← memRead buf s.pos
    let t ← detect b { s with pos := s.pos + 1 }
    scanBytes buf k t

/-- `finish()` (R85): a held `0xD2` is data, the open candidate is closed, and `END` is `NoFramesFound` exactly when no
candidate survived (R77). -/
def finishScan (s : State) : Except Fault State := do
  let s1 := if s.detPend then { pushByte Config.marker0 s with detPend := false } else s
  let s2 ← match s1.detPhase with
    | .inCand => closeCand s1.cand s1
    | .prefixBytes => .ok s1
  if s2.ncand = 0#16 then return s2.raise .noFramesFound 0#16
  else return s2.endWith .ok s2.ncand 0#16 (endFlags false)

/-- EXTRACT (R72) by the realization of R85. -/
def execExtract (buf : List Byte) (s : State) : Result :=
  outcomeOf (do
    let t ← scanBytes buf buf.length s
    finishScan t)

/-- FRAME_CFG (R81): the candidate `D2 03 52` and its tail is closed and classified. -/
def execFrameCfg (tail : List Byte) (s : State) : Result :=
  outcomeOf (closeCand (wireFrame Config.cmdCfg tail) s)

/-- FRAME_RT (R81): the candidate `D2 03 7C` and its tail is closed and classified. -/
def execFrameRt (tail : List Byte) (s : State) : Result :=
  outcomeOf (closeCand (wireFrame Config.cmdRt tail) s)

/-- FRAME_UNKNOWN (R81): a candidate with any other command byte is closed and classified. -/
def execFrameUnknown (cmd : Byte) (tail : List Byte) (s : State) : Result :=
  outcomeOf (closeCand (wireFrame cmd tail) s)

end Sys2Proof.Machine
end

