-- ==== Sys2Proof/Machine/Unpack.lean ====
section
/-! DEFINITION. The register unpacker (spec/41_register_unpacker.md): UNPACK. -/

namespace Sys2Proof.Machine

/-- The REG tokens of registers `k, k+1, …` (R61, R96). -/
def regTokens (k : Nat) : List Reg16 → List Token
  | [] => []
  | v :: vs => .reg (BitVec.ofNat 16 k) v :: regTokens (k + 1) vs

/-- UNPACK (R95): one REG token a register in ascending index, then `END(OK)` with their number. -/
def execUnpack (payload : List Byte) (s : State) : Result :=
  outcomeOf (do
    let regs ← readRegs payload
    return ((s.walked payload.length).emitAll (regTokens 0 regs)).endWith .ok (BitVec.ofNat 16 regs.length) 0#16
      (endFlags false))

end Sys2Proof.Machine
end

