-- ==== Sys2Proof/Machine/Dispatch.lean ====
section
/-! DEFINITION. The dispatch: one arm per instruction, each one call of its meaning. -/

namespace Sys2Proof.Machine

def exec (i : Instr) (s : State) : Host.Outcome State Fault Refusal :=
  match i with
  | .extract buf => Sys2Proof.Machine.execExtract buf s
  | .unpack payload => Sys2Proof.Machine.execUnpack payload s
  | .alarm data => Sys2Proof.Machine.execAlarm data s
  | .rtAlarm payload => Sys2Proof.Machine.execRtAlarm payload s
  -- the candidates of an EXTRACT request
  | .frameCfg tail => Sys2Proof.Machine.execFrameCfg tail s
  | .frameRt tail => Sys2Proof.Machine.execFrameRt tail s
  | .frameUnknown cmd tail => Sys2Proof.Machine.execFrameUnknown cmd tail s

end Sys2Proof.Machine
end

