-- ==== Sys2Proof/Machine/Step.lean ====
section
/-! DEFINITION. One step of the machine: the host's next move where it can complete, and otherwise one step of the
block (spec/10_state.md R24, R25, spec/20_memory.md R45, R46). -/

namespace Sys2Proof.Machine

/-- One step of the block by its phase (R24). In IDLE and LOAD it waits for the host (R135); in SCAN it runs the
request; in EMIT_END it emits. -/
def blockStep (s : State) : Host.Outcome State Fault Refusal :=
  match s.mode with
  | .idle => .next s
  | .load => .next s
  | .scan =>
    match fetch s with
    | .ok i => exec i s
    | .error e => .next (s.rejectRequest e)
  | .emitEnd => .next s.drain

/-- One step. A reset completes at once; a `send` completes where the block takes a byte and a `take` where `out` is
full; while the host waits for that, and where it has no move, the block steps. -/
def step (s : State) : Host.Outcome State Fault Refusal :=
  match s.host with
  | [] => blockStep s
  | .wait :: ms => blockStep { s with host := ms }
  | .reset :: ms => .next { s with host := ms }.assertReset
  | .send x :: ms => if s.accepts then .next ({ s with host := ms }.acceptXfer x) else blockStep s
  | .take :: ms =>
    match s.out with
    | some t => .next ({ s with host := ms }.hostTake t)
    | none => blockStep s

/-- The state in which the block is about to run the request of operation `op` with these data bytes, no host move
pending: what accepting the header and the data bytes leaves (R24). -/
def State.withRequest (s : State) (op : Op) (data : List Byte) : State :=
  { s.clearWork with mode := .scan, op := op, dbuf := data, nrecv := data.length, host := [] }

/-- The state whose next step runs the instruction of an opcode-table word. A request's header stands for the request
with zero operand bytes. A wire frame is run by EXTRACT only, so its command byte stands for an EXTRACT request whose
buffer is exactly that one frame. -/
def State.withFetchWord (s : State) (_nbits w : Nat) : State :=
  let b : Byte := BitVec.ofNat 8 w
  if tableWordIsHeader b then s.withRequest (headerOp b) (zeroOperand (headerOp b))
  else s.withRequest .extract (tableFrame b)

end Sys2Proof.Machine
end

