-- ==== Sys2Proof/Machine/Functions.lean ====
section
/-! DEFINITION. The pure functions from a request to its response token list, which spec/00_scope.md R14 calls the
normative semantics: `markers`, `candidates` and EXTRACT (spec/40_frame_extractor.md R72 to R83), `regs` and UNPACK
(R91 to R96), `alarms`, ALARM and RT_ALARM (R98 to R114), and the whole request with its priorities (R122). The step
function does not use them; statements say that the machine agrees with them. -/

namespace Sys2Proof.Machine

/-! ### EXTRACT -/

/-- Position `p` of the buffer holds a marker (R73). -/
def markerAt (buf : List Byte) (p : Nat) : Bool :=
  buf[p]? == some Config.marker0 && buf[p + 1]? == some Config.marker1

/-- `markers(buf)`: every position of a marker, increasing (R73). -/
def markers (buf : List Byte) : List Nat := (List.range buf.length).filter (markerAt buf)

/-- The windows from each marker position to the next, the last one to the end (R75). -/
def windows (buf : List Byte) : List Nat → List (List Byte)
  | [] => []
  | [p] => [slice buf p buf.length]
  | p :: q :: rest => slice buf p q :: windows buf (q :: rest)

/-- `candidates(buf, markers(buf))` (R75): the bytes before the first marker are in none. -/
def candidates (buf : List Byte) : List (List Byte) := windows buf (markers buf)

/-- The surviving candidates: those of at least `MIN_CAND_LEN` bytes, in order (R76). -/
def surviving (buf : List Byte) : List (List Byte) :=
  (candidates buf).filter fun c => Config.minCandLen ≤ c.length

/-- The token of surviving candidate number `i` (the body of R72's loop; R78 to R81). Its reads are in range because a
surviving candidate has at least `MIN_CAND_LEN` bytes, and `minFrameLen` where the suffix is read. -/
def candToken (i : Nat) (c : List Byte) : Token :=
  let n := c.length
  let cmd := c.getD Config.markerLen 0#8
  let frame := fun kind => Token.frame (BitVec.ofNat 16 i) cmd kind (BitVec.ofNat 16 (n - Config.frameOverhead))
    (slice c Config.hdrLen (n - Config.suffixLen)) (c.getD (n - Config.suffixLen) 0#8)
    (c.getD (n - Config.suffixLen + 1) 0#8)
  if n < Config.minFrameLen then .candErr (BitVec.ofNat 16 i) .emptyPayload cmd (BitVec.ofNat 16 n)
  else if cmd = Config.cmdCfg then frame .cfg
  else if cmd = Config.cmdRt then frame .rt
  else .candErr (BitVec.ofNat 16 i) .unknownCommand cmd (BitVec.ofNat 16 n)

/-- The tokens of candidates numbered from `i` on (R83). -/
def candTokens (i : Nat) : List (List Byte) → List Token
  | [] => []
  | c :: cs => candToken i c :: candTokens (i + 1) cs

/-- The response of EXTRACT (R72, R77). -/
def extractResponse (buf : List Byte) : List Token :=
  match surviving buf with
  | [] => [.endTok .noFramesFound 0#16 0#16 0#8]
  | c :: cs => candTokens 0 (c :: cs) ++ [.endTok .ok (BitVec.ofNat 16 (c :: cs).length) 0#16 0#8]

/-! ### UNPACK -/

/-- `regs(P)`: the big-endian pairs of the payload, an odd last byte dropped (R91, R93). -/
def regs : List Byte → List Reg16
  | hi :: lo :: rest => be16 hi lo :: regs rest
  | _ => []

/-- The response of UNPACK (R95, R96). -/
def unpackResponse (payload : List Byte) : List Token :=
  (regs payload).mapIdx (fun k v => .reg (BitVec.ofNat 16 k) v) ++
    [.endTok .ok (BitVec.ofNat 16 (regs payload).length) 0#16 0#8]

/-! ### ALARM and RT_ALARM -/

/-- An alarm record, DOC's AlarmRecord (R61, R98): `reg` is the register identifier less one. -/
structure AlarmRecord where
  reg : Fin Config.nAlarmRegs
  bit : Fin Config.alarmBits
  case : Fin Config.alarmBits
  msg : MsgWord
  deriving DecidableEq, Repr

/-- A register and a case index within range address an entry of the ROM (R65). -/
theorem romIndex_lt (reg : Fin Config.nAlarmRegs) (case : Fin Config.alarmBits) :
    reg.val * Config.alarmBits + case.val < Config.romSize :=
  calc reg.val * Config.alarmBits + case.val
      < (reg.val + 1) * Config.alarmBits := by rw [Nat.succ_mul]; exact Nat.add_lt_add_left case.isLt _
    _ ≤ Config.romSize := Nat.mul_le_mul_right _ reg.isLt

/-- `ALARM_MSG(r, c)` for register identifier `r = reg + 1` (R21, R105). -/
def alarmMsg (rom : AlarmRom) (reg : Fin Config.nAlarmRegs) (case : Fin Config.alarmBits) : MsgWord :=
  rom[reg.val * Config.alarmBits + case.val]'(romIndex_lt reg case)

/-- `case_index = 15 - bit_index` (R64, R99). -/
def caseOf (b : Fin Config.alarmBits) : Fin Config.alarmBits := ⟨Config.alarmBits - 1 - b.val, by omega⟩

/-- The record of bit `b` of register `r` (R99). -/
def alarmRecord (rom : AlarmRom) (r : Fin Config.nAlarmRegs) (b : Fin Config.alarmBits) : AlarmRecord where
  reg := r
  bit := b
  case := caseOf b
  msg := alarmMsg rom r (caseOf b)

/-- `alarms(v1, v2, v3, v4)`: a record for every set bit, ascending register identifier, then ascending bit index
(R98, R101). -/
def alarms (rom : AlarmRom) (v : Fin Config.nAlarmRegs → Reg16) : List AlarmRecord :=
  (List.finRange Config.nAlarmRegs).flatMap fun r =>
    ((List.finRange Config.alarmBits).filter fun b => (v r).getLsbD b.val).map (alarmRecord rom r)

/-- The ALARM_REC token of a record (R61). -/
def AlarmRecord.token (a : AlarmRecord) : Token :=
  .alarmRec (BitVec.ofNat 8 (a.reg.val + 1)) (BitVec.ofNat 8 a.bit.val) (BitVec.ofNat 8 a.case.val) a.msg

/-- The response of ALARM (R109): `alarmDataLen` bytes are the four values, in register-identifier order (R57); any other
number is `BadRequest`. -/
def alarmResponse (rom : AlarmRom) (data : List Byte) : List Token :=
  if data.length = Config.alarmDataLen then
    let recs := alarms rom fun r => (regs data).getD r.val 0#16
    recs.map AlarmRecord.token ++ [.endTok .ok (BitVec.ofNat 16 recs.length) 0#16 0#8]
  else [.endTok .badRequest 0#16 0#16 0#8]

/-- The response of RT_ALARM (R110 to R114): the alarm registers are those from `ALARM_BASE` on, 58 to 61. -/
def rtAlarmResponse (rom : AlarmRom) (payload : List Byte) : List Token :=
  let rs := regs payload
  let n := rs.length
  if n < Config.rtMinRegs then [.endTok .insufficientData 0#16 (BitVec.ofNat 16 n) 0#8]
  else
    let v : Fin Config.nAlarmRegs → Reg16 := fun r => rs.getD (Config.alarmBase + r.val) 0#16
    let recs := alarms rom v
    [.alarmRaw (v 0) (v 1) (v 2) (v 3)] ++ recs.map AlarmRecord.token ++
      [.endTok .ok (BitVec.ofNat 16 recs.length) (BitVec.ofNat 16 n) (if n = Config.rtMinRegs then 0x01#8 else 0x00#8)]

/-! ### Requests -/

/-- The response of an operation to its data bytes. -/
def opResponse (rom : AlarmRom) (op : Op) (data : List Byte) : List Token :=
  match op with
  | .extract => extractResponse data
  | .unpack => unpackResponse data
  | .alarm => alarmResponse rom data
  | .rtAlarm => rtAlarmResponse rom data

/-- The response of a whole request, from its bytes, the constants and the ROM alone (R14, R15), by the priority of
R122: reserved header bits, then overflow, then the operation. -/
def requestResponse (rom : AlarmRom) (header : Byte) (data : List Byte) : List Token :=
  if headerReserved header ≠ 0#6 then [.endTok .badRequest 0#16 0#16 0#8]
  else if Config.bufMax < data.length then [.endTok .overflow 0#16 0#16 0#8]
  else opResponse rom (headerOp header) data

end Sys2Proof.Machine
end

