-- ==== Sys2Proof/Safety.lean ====
section
/-! DEFINITION. The terms in which claims about runs are stated: what a legal token is, the invariant of the machine,
the order in which tokens leave it, and runs of several steps. -/

namespace Sys2Proof.Machine

/-! ### Tokens -/

/-- The token is an `END`. -/
def Token.isEnd : Token → Bool
  | .endTok _ _ _ _ => true
  | .frame _ _ _ _ _ _ _ => false
  | .candErr _ _ _ _ => false
  | .reg _ _ => false
  | .alarmRaw _ _ _ _ => false
  | .alarmRec _ _ _ _ => false

/-- The statuses an `END` may carry; the two candidate statuses are carried by CAND_ERR only (R116). -/
def Status.requestLevel : Status → Bool
  | .emptyPayload => false
  | .unknownCommand => false
  | .ok => true
  | .noFramesFound => true
  | .insufficientData => true
  | .badRequest => true
  | .overflow => true

/-- The field values R59 to R62, R99 and R116 allow a token: an accepted frame has a payload, whose length `plen`
says, and the kind of its command byte; a failed candidate has 3 to 5 bytes or an unknown command; an alarm record has
register identifier 1..4 and the inverted index; an `END` carries a request-level status, a zero count unless it is OK,
and no flag but `trunc_warn`. -/
def Token.legal : Token → Bool
  | .frame _ cmd kind plen payload _ _ =>
    decide (plen.toNat = payload.length) && decide (Config.minPayloadLen ≤ payload.length) && kindOf cmd == some kind
  | .candErr _ status cmd clen =>
    (status == .emptyPayload && decide (Config.minCandLen ≤ clen.toNat) && decide (clen.toNat < Config.minFrameLen)) ||
      (status == .unknownCommand && decide (Config.minFrameLen ≤ clen.toNat) && kindOf cmd == none)
  | .reg _ _ => true
  | .alarmRaw _ _ _ _ => true
  | .alarmRec registerId bitIndex caseIndex _ =>
    decide (1 ≤ registerId.toNat) && decide (registerId.toNat ≤ Config.nAlarmRegs) &&
      decide (bitIndex.toNat < Config.alarmBits) && decide (caseIndex.toNat = Config.alarmBits - 1 - bitIndex.toNat)
  | .endTok status count _ flags =>
    status.requestLevel && (status == .ok || count == 0#16) && (flags == 0x00#8 || flags == 0x01#8)

/-- The token list ends in exactly one `END` (R58). -/
def endsOnce (ts : List Token) : Prop :=
  ∃ body last, ts = body ++ [last] ∧ last.isEnd = true ∧ ∀ t ∈ body, t.isEnd = false

/-- Every token that has been produced and not been dropped by a reset, in the order of production. -/
def State.produced (s : State) : List Token := s.delivered ++ s.out.toList ++ s.resp

/-! ### The invariant -/

/-- What R24 leaves where SCAN begins: the elements that an operation writes hold their reset values. -/
structure State.Fresh (s : State) : Prop where
  pos : s.pos = 0
  detPhase : s.detPhase = .prefixBytes
  detPend : s.detPend = false
  cand : s.cand = []
  ncand : s.ncand = 0#16
  nrec : s.nrec = 0#16
  endStatus : s.endStatus = .ok
  endAux : s.endAux = 0#16
  out : s.out = none
  resp : s.resp = []

/-- The invariant of DBD. -/
structure State.Inv (s : State) : Prop where
  /-- The request buffer never overflows (R23, R33). -/
  buffer : Memory.wf s.dbuf = true
  /-- `nrecv` saturates at `BUF_MAX + 1`, and `ovf` says that it has (R23, R120). -/
  received : if s.ovf then s.nrecv = Config.bufMax + 1 else s.nrecv ≤ Config.bufMax
  /-- Every byte of a request with a good header that fits is in the buffer, and none of one with a bad header. -/
  stored : s.dbuf.length = if s.hdrBad then 0 else min s.nrecv Config.bufMax
  /-- The scan position stays within the data (R17). -/
  position : s.pos ≤ s.dbuf.length
  /-- Nothing of the last request is left when the next one loads or runs (R15, R24). -/
  fresh : s.mode = .load ∨ s.mode = .scan → s.Fresh
  /-- In IDLE the response is complete: what may remain is its `END`, in `out` (R24, R126). -/
  idle : s.mode = .idle → s.resp = [] ∧ ∀ t, s.out = some t → t.isEnd = true
  /-- In EMIT_END the rest of the response ends in exactly one `END`, which has not reached `out` (R24, R58). -/
  emitting : s.mode = .emitEnd → endsOnce s.resp ∧ ∀ t, s.out = some t → t.isEnd = false
  /-- Every token is legal. -/
  tokens : ∀ t ∈ s.produced, t.legal = true
  /-- The ROM is one a valid instance may have (R22, R106). -/
  rom : AlarmRom.Conforms Config.readText s.rom

/-! ### Steps and runs -/

/-- The next step from `s` is the block's, and it starts in `u`: the host has no move, sends a byte the block does not
accept yet, or waits for a token that is not there, and `u` is `s`; or its move is a wait, which the step consumes. -/
def State.blockStepsFrom (s u : State) : Prop :=
  match s.host with
  | [] => u = s
  | .wait :: ms => u = { s with host := ms }
  | .reset :: _ => False
  | .send _ :: _ => s.accepts = false ∧ u = s
  | .take :: _ => s.out = none ∧ u = s

/-- `k` steps of the machine. -/
def run (k : Nat) (s : State) : Result := Host.Core.run Sys2Proof.core k s

/-- The moves that send data bytes, `last` on the final one (R54). -/
def dataSends : List Byte → List HostMove
  | [] => []
  | [b] => [.send ⟨b, true⟩]
  | b :: c :: rest => .send ⟨b, false⟩ :: dataSends (c :: rest)

/-- The moves that send a request: the header, marked last when there is no data, then the data bytes (R54). -/
def sends (header : Byte) (data : List Byte) : List HostMove :=
  .send ⟨header, data.isEmpty⟩ :: dataSends data

/-- The host submits a request and then consumes every token of its response. -/
def submit (rom : AlarmRom) (header : Byte) (data : List Byte) : List HostMove :=
  sends header data ++ List.replicate (requestResponse rom header data).length .take

/-- The state is between requests with nothing left to consume: the start and end state of spec/95_test_vectors.md. -/
def State.quiet (s : State) : Prop := s.mode = .idle ∧ s.out = none ∧ s.resp = []

/-- The frame rows run one after another: each candidate is decoded and its instruction executed. -/
def runFrames : List (List Byte) → State → Result
  | [], s => .next s
  | c :: cs, s =>
    match decodeFrame c with
    | .error _ => .next s
    | .ok i =>
      match exec i s with
      | .next t => runFrames cs t
      | .fault f => .fault f
      | .refused r => .refused r

end Sys2Proof.Machine
end

