-- ==== Sys2Proof/Certificates/Slice0/Obligations.lean ====
section
/-! DEFINITION. The statements about the model. Each docstring names the rule it comes from. A clause that rests on a
choice of the model, not on a rule, is marked with its log entry. -/

open Sys2Proof Sys2Proof.Machine

/-! ### Reset -/

/-- R31: after reset every working element holds the value of R23's table, and the ROM the one it was built with. -/
def Obligations.ResetLeavesTableValues : Prop :=
  State.reset.mode = .idle ∧ State.reset.op = .extract ∧ State.reset.hdrBad = false ∧ State.reset.dbuf = [] ∧
  State.reset.nrecv = 0 ∧ State.reset.ovf = false ∧ State.reset.pos = 0 ∧ State.reset.detPhase = .prefixBytes ∧
  State.reset.detPend = false ∧ State.reset.cand = [] ∧ State.reset.ncand = 0#16 ∧ State.reset.nrec = 0#16 ∧
  State.reset.endStatus.code = 0#8 ∧ State.reset.endAux = 0#16 ∧ State.reset.out = none ∧
  State.reset.rom = Config.alarmMsg

/-- R136, R137: a reset in any state, whatever the host does next, completes in one step. It gives every working element
its reset value, drops the request and the token in `out`, and changes neither the ROM nor what the host has consumed.
Where a byte follows the reset, it is read as a header. That the host's moves still to come stay is the model's choice
(log entry 3). -/
def Obligations.ResetAbandonsRequest : Prop :=
  ∀ (s : State) (ms : List HostMove), s.host = .reset :: ms →
    ∃ t, step s = .next t ∧ t = { State.reset with rom := s.rom, host := ms, delivered := s.delivered } ∧
      ∀ x ms', ms = .send x :: ms' →
        ∃ u, step t = .next u ∧ u.op = headerOp x.byte ∧ u.hdrBad = (headerReserved x.byte != 0#6) ∧
          u.mode = (if x.last then .scan else .load) ∧ u.host = ms' ∧ u.delivered = s.delivered

/-! ### The request channel -/

/-- R24, R55: in IDLE, `out` empty, a header is accepted: `op` is its bits [1:0], `hdr_bad` says that bits [7:2] are not
zero, every other working element has its reset value, and the phase is SCAN behind a header marked last, else LOAD.
That a header waits for `out` to be empty is the model's choice (log entry 5). -/
def Obligations.HeaderStartsRequest : Prop :=
  ∀ (s : State) (x : Xfer) (ms : List HostMove), s.mode = .idle → s.out = none → s.host = .send x :: ms →
    step s = .next { State.reset with
      op := headerOp x.byte
      hdrBad := decide (4 ≤ x.byte.toNat)
      mode := if x.last then .scan else .load
      rom := s.rom
      host := ms
      delivered := s.delivered }

/-- R24, R120: in LOAD a data byte goes into `dbuf` and is counted; one that arrives when `nrecv` is at `BUF_MAX` or
above sets `ovf` and is dropped, with `nrecv` at `BUF_MAX + 1`. Behind a bad header the byte is counted and dropped,
which is the model's reading of R119 (log entry 6). The byte marked last leads to SCAN, and nothing else changes. -/
def Obligations.DataByteIsLoaded : Prop :=
  ∀ (s : State) (x : Xfer) (ms : List HostMove), s.mode = .load → s.host = .send x :: ms →
    step s = .next { s with
      host := ms
      mode := if x.last then .scan else .load
      ovf := s.ovf || decide (Config.bufMax ≤ s.nrecv)
      nrecv := if Config.bufMax ≤ s.nrecv then Config.bufMax + 1 else s.nrecv + 1
      dbuf := if Config.bufMax ≤ s.nrecv ∨ s.hdrBad = true then s.dbuf else s.dbuf ++ [x.byte] }

/-- R54, R56, R122: the moves that send a request, in a quiet state, lead to SCAN in as many steps as there are bytes.
The request gathered there decodes as its bytes do, and SCAN starts with clean working elements. -/
def Obligations.SentRequestIsGathered : Prop :=
  ∀ (s : State) (h : Byte) (data : List Byte) (rest : List HostMove), s.quiet → s.host = sends h data ++ rest →
    ∃ t, run (1 + data.length) s = .next t ∧ t.mode = .scan ∧ t.Fresh ∧ fetch t = decodeRequest h data ∧
      (headerReserved h = 0#6 → data.length ≤ Config.bufMax → t.dbuf = data) ∧
      t.host = rest ∧ t.rom = s.rom ∧ t.delivered = s.delivered

/-! ### Running a request -/

/-- R24: where SCAN holds a request whose header and data bytes decode to `i`, one step is `exec i`: with no host move
pending, with a byte or a token the host waits for, and behind a `wait`, which the step consumes. That the whole of
SCAN is one step is the model's choice (log entry 4). -/
def Obligations.StepRunsDecodedRequest : Prop :=
  ∀ (s : State) (h : Byte) (data : List Byte) (i : Instr), s.mode = .scan →
    s.op = headerOp h → s.hdrBad = (headerReserved h != 0#6) → s.ovf = decide (Config.bufMax < data.length) →
    (s.ovf = false → s.hdrBad = false → s.dbuf = data) → decodeRequest h data = .ok i →
    (s.host = [] → step s = exec i s) ∧
    (∀ ms, s.host = .wait :: ms → step s = exec i { s with host := ms }) ∧
    (∀ x ms, s.host = .send x :: ms → step s = exec i s) ∧
    (∀ ms, s.out = none → s.host = .take :: ms → step s = exec i s)

/-- R119, R120, R122: SCAN answers a request with reserved header bits by `END(BadRequest)` alone, and otherwise one
with too many data bytes by `END(Overflow)` alone; nothing else is emitted and no data is processed. So it does for
every host whose next move cannot complete first: none, a byte it sends, a token it waits for, a wait, which the step
consumes. That SCAN is one step, which leaves the `END` to EMIT_END, is the model's choice (log entry 4); that a
rejected request leaves the scan position is its reading (log entry 7). -/
def Obligations.BadRequestsAreAnswered : Prop :=
  ∀ s u : State, s.mode = .scan → s.blockStepsFrom u →
    (s.hdrBad = true → step s = .next { u with
      mode := .emitEnd, endStatus := .badRequest, endAux := 0#16
      resp := s.resp ++ [.endTok .badRequest 0#16 0#16 0#8] }) ∧
    (s.hdrBad = false → s.ovf = true → step s = .next { u with
      mode := .emitEnd, endStatus := .overflow, endAux := 0#16
      resp := s.resp ++ [.endTok .overflow 0#16 0#16 0#8] })

/-! ### EXTRACT -/

/-- R72, R77: EXTRACT on the byte-serial detector of R85 completes from every state SCAN can start in, and its response
is the one of R72's pseudocode. It changes the response, the phase, the pending END, the scan position and detector
and the candidate count, and nothing else. That the whole response is there after one step is the model's choice
(log entry 4). -/
def Obligations.ExtractGivesResponse : Prop :=
  ∀ (s : State) (buf : List Byte), s.Fresh → buf.length ≤ Config.bufMax →
    ∃ t, exec (.extract buf) s = .next t ∧
      t.resp = extractResponse buf ∧ t.mode = .emitEnd ∧ t.pos = buf.length ∧
      t.ncand = BitVec.ofNat 16 (surviving buf).length ∧
      t.endStatus = (if surviving buf = [] then .noFramesFound else .ok) ∧ t.endAux = 0#16 ∧
      t.op = s.op ∧ t.hdrBad = s.hdrBad ∧ t.dbuf = s.dbuf ∧ t.nrecv = s.nrecv ∧ t.ovf = s.ovf ∧ t.nrec = s.nrec ∧
      t.out = s.out ∧ t.rom = s.rom ∧ t.host = s.host ∧ t.delivered = s.delivered ∧
      ∀ a, memRead t.dbuf a = memRead s.dbuf a

/-- R83, R84: exactly one token a surviving candidate, in order, numbered from 0 without a wrap; token `k` depends only
on candidate `k` and on `k`; `END` carries their exact number. -/
def Obligations.ExtractNumbersSurvivors : Prop :=
  ∀ (s : State) (buf : List Byte), s.Fresh → buf.length ≤ Config.bufMax → surviving buf ≠ [] →
    ∃ t toks count, exec (.extract buf) s = .next t ∧ t.resp = toks ++ [.endTok .ok count 0#16 0#8] ∧
      toks.length = (surviving buf).length ∧ count.toNat = toks.length ∧
      ∀ k c, (surviving buf)[k]? = some c → toks[k]? = some (candToken k c) ∧
        ((∃ idx cmd kind plen payload x y, candToken k c = .frame idx cmd kind plen payload x y ∧ idx.toNat = k) ∨
         (∃ idx st cmd clen, candToken k c = .candErr idx st cmd clen ∧ idx.toNat = k))

/-- R81 inside R72: every surviving candidate of a buffer decodes to a wire-frame row, and EXTRACT is those
instructions executed one after another, then the `END`. -/
def Obligations.ExtractRunsItsFrames : Prop :=
  ∀ (s : State) (buf : List Byte), s.Fresh → buf.length ≤ Config.bufMax →
    (∀ c ∈ surviving buf, ∃ i, decodeFrame c = .ok i ∧ encode i = c ∧ i.wellFormed = true) ∧
    ∃ t u e, exec (.extract buf) s = .next t ∧ runFrames (surviving buf) s = .next u ∧
      t.ncand = u.ncand ∧ t.resp = u.resp ++ [e] ∧ e.isEnd = true

/-- R74: two markers of a buffer differ by at least 2, and the marker list is increasing and complete (R73). -/
def Obligations.MarkersNeverOverlap : Prop :=
  ∀ buf : List Byte, (markers buf).Pairwise (fun p q => p + 2 ≤ q) ∧
    ∀ p, p ∈ markers buf ↔ buf[p]? = some 0xD2#8 ∧ buf[p + 1]? = some 0x03#8

/-- R75: bytes before the first marker change nothing in the response. -/
def Obligations.PrefixIsDropped : Prop :=
  ∀ (s : State) (pre buf : List Byte), s.Fresh → (pre ++ buf).length ≤ Config.bufMax → hasMarker pre = false →
    (pre.getLast? ≠ some 0xD2#8 ∨ buf.head? ≠ some 0x03#8) →
    ∃ t u, exec (.extract (pre ++ buf)) s = .next t ∧ exec (.extract buf) s = .next u ∧ t.resp = u.resp

/-- Frames sent back to back, none with a marker inside, come out as one token each: the classification of each frame
by itself, in order. -/
def Obligations.ConcatenatedFramesComeOut : Prop :=
  ∀ (s : State) (fs : List Instr), s.Fresh → fs ≠ [] → (∀ i ∈ fs, i.space = .frame ∧ i.wellFormed = true) →
    (fs.flatMap encode).length ≤ Config.bufMax →
    ∃ t, exec (.extract (fs.flatMap encode)) s = .next t ∧
      t.resp = candTokens 0 (fs.map encode) ++ [.endTok .ok (BitVec.ofNat 16 fs.length) 0#16 0#8]

/-- R89: two back-to-back frames with known command bytes, equal or not, and payloads that are not empty, and no marker
at offset 2 or beyond, give exactly two FRAME tokens with the original payloads and suffixes. -/
def Obligations.BackToBackFramesKeepPayloads : Prop :=
  ∀ (s : State) (p q : List Byte) (c d a b x y : Byte), s.Fresh →
    (c = 0x52#8 ∨ c = 0x7C#8) → (d = 0x52#8 ∨ d = 0x7C#8) → p ≠ [] → q ≠ [] →
    hasMarker (c :: (p ++ [a, b])) = false → hasMarker (d :: (q ++ [x, y])) = false →
    p.length + q.length + 10 ≤ Config.bufMax →
    let kind := fun (cmd : Byte) => if cmd = 0x52#8 then FrameKind.cfg else FrameKind.rt
    ∃ t, exec (.extract ([0xD2#8, 0x03#8, c] ++ p ++ [a, b] ++ [0xD2#8, 0x03#8, d] ++ q ++ [x, y])) s = .next t ∧
      t.resp = [.frame 0#16 c (kind c) (BitVec.ofNat 16 p.length) p a b,
        .frame 1#16 d (kind d) (BitVec.ofNat 16 q.length) q x y, .endTok .ok 2#16 0#16 0#8]

/-! ### The wire-frame rows -/

/-- R79, R81, R82, R88: a candidate with a payload and any suffix. A known command byte gives FRAME with its kind,
whatever the payload length and the suffix; any other gives CAND_ERR(UnknownCommand) with the candidate's length. Each
takes the next index, and nothing else changes; that `out` is among what does not change is the model's choice (log
entry 4). -/
def Obligations.FramesAreClassified : Prop :=
  ∀ (s : State) (payload : List Byte) (x y cmd : Byte), payload ≠ [] →
    exec (.frameCfg (payload ++ [x, y])) s = .next { s with
      ncand := s.ncand + 1#16
      resp := s.resp ++ [.frame s.ncand 0x52#8 .cfg (BitVec.ofNat 16 payload.length) payload x y] } ∧
    exec (.frameRt (payload ++ [x, y])) s = .next { s with
      ncand := s.ncand + 1#16
      resp := s.resp ++ [.frame s.ncand 0x7C#8 .rt (BitVec.ofNat 16 payload.length) payload x y] } ∧
    (cmd ≠ 0x52#8 → cmd ≠ 0x7C#8 → exec (.frameUnknown cmd (payload ++ [x, y])) s = .next { s with
      ncand := s.ncand + 1#16
      resp := s.resp ++ [.candErr s.ncand .unknownCommand cmd (BitVec.ofNat 16 (payload.length + 5))] })

/-- R80, R123: a candidate of 3 to 5 bytes gives CAND_ERR(EmptyPayload) whatever its command byte, and no FRAME.
Nothing but the index and the response changes; that `out` does not is the model's choice (log entry 4). -/
def Obligations.ShortFramesAreEmpty : Prop :=
  ∀ (s : State) (tail : List Byte) (cmd : Byte), tail.length < 3 →
    let err := fun (b : Byte) => ({ s with
      ncand := s.ncand + 1#16
      resp := s.resp ++ [.candErr s.ncand .emptyPayload b (BitVec.ofNat 16 (tail.length + 3))] } : State)
    exec (.frameCfg tail) s = .next (err 0x52#8) ∧
    exec (.frameRt tail) s = .next (err 0x7C#8) ∧
    exec (.frameUnknown cmd tail) s = .next (err cmd)

/-! ### UNPACK -/

/-- R95: UNPACK completes for every payload, the empty and the odd ones too, with the response of R95's pseudocode. The
scan position and the whole response in one step are the model's choice (log entries 7 and 4); nothing else changes but
the phase and the pending END. -/
def Obligations.UnpackGivesResponse : Prop :=
  ∀ (s : State) (payload : List Byte), exec (.unpack payload) s = .next { s with
    pos := s.pos + payload.length, mode := .emitEnd, endStatus := .ok, endAux := 0#16
    resp := s.resp ++ unpackResponse payload }

/-- R91, R92, R36, R38: UNPACK emits `⌊n/2⌋` REG tokens; number `k` carries `P[2k]·256 + P[2k+1]`, whose bits 15..8 are
those of the earlier byte and bits 7..0 those of the later one. -/
def Obligations.RegistersAreBigEndian : Prop :=
  ∀ (s : State) (payload : List Byte),
    ∃ t toks, exec (.unpack payload) s = .next t ∧
      t.resp = s.resp ++ toks ++ [.endTok .ok (BitVec.ofNat 16 (payload.length / 2)) 0#16 0#8] ∧
      toks.length = payload.length / 2 ∧
      ∀ k hi lo, payload[2 * k]? = some hi → payload[2 * k + 1]? = some lo →
        ∃ v : Reg16, toks[k]? = some (.reg (BitVec.ofNat 16 k) v) ∧ v.toNat = hi.toNat * 256 + lo.toNat ∧
          ∀ i < 16, v.getLsbD i = if i < 8 then lo.getLsbD i else hi.getLsbD (i - 8)

/-- R93: an odd last byte has no effect on the response. -/
def Obligations.OddByteIsIgnored : Prop :=
  ∀ (s : State) (payload : List Byte) (b : Byte), payload.length % 2 = 0 →
    ∃ t u, exec (.unpack (payload ++ [b])) s = .next t ∧ exec (.unpack payload) s = .next u ∧
      { t with pos := u.pos } = u

/-! ### ALARM and RT_ALARM -/

/-- R109: ALARM on eight bytes completes for every value of the four registers, with the response of R109's pseudocode;
`nrec` counts the records, and nothing else changes but the position (log entry 7), the phase and the pending END. That
the whole response is there after one step is the model's choice (log entry 4). -/
def Obligations.AlarmGivesResponse : Prop :=
  ∀ (s : State) (data : List Byte), data.length = 8 → s.nrec = 0#16 →
    exec (.alarm data) s = .next { s with
      pos := s.pos + 8, mode := .emitEnd, endStatus := .ok, endAux := 0#16
      nrec := BitVec.ofNat 16 ((alarmResponse s.rom data).length - 1)
      resp := s.resp ++ alarmResponse s.rom data }

/-- R57, R119: ALARM on any other number of bytes raises `BadRequest` and emits nothing but its `END`, which the model's
one step of SCAN leaves to EMIT_END (log entry 4). That the scan position stays is its reading (log entry 7). -/
def Obligations.AlarmRejectsOtherLengths : Prop :=
  ∀ (s : State) (data : List Byte), data.length ≠ 8 →
    exec (.alarm data) s = .next { s with
      mode := .emitEnd, endStatus := .badRequest, endAux := 0#16
      resp := s.resp ++ [.endTok .badRequest 0#16 0#16 0#8] }

/-- R98 to R101: the records of ALARM are exactly those of the set bits, reserved entries included: register identifier
`r + 1`, the bit, case index `15 - b`, and the ROM's word at `r·16 + 15 - b`. They come in ascending register identifier,
then ascending bit index, and `END` counts them. -/
def Obligations.AlarmRecordsAreSetBits : Prop :=
  ∀ (s : State) (data : List Byte), data.length = 8 → s.nrec = 0#16 →
    ∃ t recs, exec (.alarm data) s = .next t ∧
      t.resp = s.resp ++ recs ++ [.endTok .ok (BitVec.ofNat 16 recs.length) 0#16 0#8] ∧
      (∀ tok, tok ∈ recs ↔ ∃ r b hi lo w, r < 4 ∧ b < 16 ∧ data[2 * r]? = some hi ∧ data[2 * r + 1]? = some lo ∧
        (be16 hi lo).getLsbD b = true ∧ s.rom[r * 16 + (15 - b)]? = some w ∧
        tok = .alarmRec (BitVec.ofNat 8 (r + 1)) (BitVec.ofNat 8 b) (BitVec.ofNat 8 (15 - b)) w) ∧
      recs.Pairwise (fun x y => ∃ r b c w r' b' c' w', x = .alarmRec r b c w ∧ y = .alarmRec r' b' c' w' ∧
        (r.toNat < r'.toNat ∨ r = r' ∧ b.toNat < b'.toNat))

/-- R102: ALARM emits and counts one record for each set bit of the four registers, 0 to 64, and `END(OK)` behind them;
when all four are zero it emits no record, and that is no error. -/
def Obligations.AlarmCountIsPopcount : Prop :=
  ∀ (s : State) (data : List Byte), data.length = 8 → s.nrec = 0#16 →
    ∃ t recs, exec (.alarm data) s = .next t ∧ t.resp = s.resp ++ recs ++ [.endTok .ok t.nrec 0#16 0#8] ∧
      (∀ tok ∈ recs, ∃ r b c w, tok = .alarmRec r b c w) ∧ t.nrec.toNat = recs.length ∧ recs.length ≤ 64 ∧
      recs.length = ((regs data).map fun v => (List.range 16).countP fun i => v.getLsbD i).sum ∧
      ((∀ b ∈ data, b = 0#8) → recs = [])

/-- R99: with exactly one bit set, bit `b` of register `r + 1`, ALARM gives exactly one record, whose case index is
`15 - b`, for every `b` and all four registers. -/
def Obligations.SingleBitInverts : Prop :=
  ∀ (s : State) (r b : Nat), r < 4 → b < 16 → s.nrec = 0#16 →
    let v := fun k => if k = r then BitVec.twoPow 16 b else 0#16
    ∃ t w, exec (.alarm ((List.range 4).flatMap fun k => be16Bytes (v k))) s = .next t ∧
      s.rom[r * 16 + (15 - b)]? = some w ∧
      t.resp = s.resp ++ [.alarmRec (BitVec.ofNat 8 (r + 1)) (BitVec.ofNat 8 b) (BitVec.ofNat 8 (15 - b)) w,
        .endTok .ok 1#16 0#16 0#8]

/-- R106: on a ROM that holds the pinned entries, bit 15 of register 1, bit 0 of register 1 and bit 9 of register 2 give
the messages whose texts DOC fixes. -/
def Obligations.PinnedMessagesAreDelivered : Prop :=
  ∀ s : State, AlarmRom.Conforms Config.readText s.rom → s.nrec = 0#16 →
    (∃ t w, exec (.alarm [0x80, 0x00, 0, 0, 0, 0, 0, 0]) s = .next t ∧
      t.resp = s.resp ++ [.alarmRec 1 15 0 w, .endTok .ok 1 0 0] ∧
      Config.readText w = "Cell Over Voltage (Stage 1)") ∧
    (∃ t w, exec (.alarm [0x00, 0x01, 0, 0, 0, 0, 0, 0]) s = .next t ∧
      t.resp = s.resp ++ [.alarmRec 1 0 15 w, .endTok .ok 1 0 0] ∧
      Config.readText w = "Discharge Temp Too Low (Stage 2)") ∧
    (∃ t w, exec (.alarm [0, 0, 0x02, 0x00, 0, 0, 0, 0]) s = .next t ∧
      t.resp = s.resp ++ [.alarmRec 2 9 6 w, .endTok .ok 1 0 0] ∧
      Config.readText w = "Excessive Differential Voltage (Stage 1)")

/-- R110: below 62 registers RT_ALARM emits `END(InsufficientData)` with the observed count and nothing else. The scan
position is the model's choice (log entry 7), and so is SCAN in one step (log entry 4). -/
def Obligations.RtAlarmNeedsFloor : Prop :=
  ∀ (s : State) (payload : List Byte), payload.length / 2 < 62 →
    exec (.rtAlarm payload) s = .next { s with
      pos := s.pos + payload.length, mode := .emitEnd, endStatus := .insufficientData
      endAux := BitVec.ofNat 16 (payload.length / 2)
      resp := s.resp ++ [.endTok .insufficientData 0#16 (BitVec.ofNat 16 (payload.length / 2)) 0#8] }

/-- R113: at the floor and above RT_ALARM completes for every payload, with the response of R113's pseudocode. The scan
position is the model's choice (log entry 7), and so is the whole response after one step (log entry 4). -/
def Obligations.RtAlarmGivesResponse : Prop :=
  ∀ (s : State) (payload : List Byte), 62 ≤ payload.length / 2 → s.nrec = 0#16 →
    exec (.rtAlarm payload) s = .next { s with
      pos := s.pos + payload.length, mode := .emitEnd, endStatus := .ok
      endAux := BitVec.ofNat 16 (payload.length / 2)
      nrec := BitVec.ofNat 16 ((rtAlarmResponse s.rom payload).length - 2)
      resp := s.resp ++ rtAlarmResponse s.rom payload }

/-- R111, R112, R114: RT_ALARM reads the alarm registers at payload bytes 116 to 123 and no other byte: two payloads of
one register count that agree there get the same response, and its ALARM_RAW carries those bytes. -/
def Obligations.RtAlarmReadsAlarmBytesOnly : Prop :=
  ∀ (s : State) (p q : List Byte), 62 ≤ p.length / 2 → p.length / 2 = q.length / 2 →
    (p.drop 116).take 8 = (q.drop 116).take 8 →
    ∃ t u rest, exec (.rtAlarm p) s = .next t ∧ exec (.rtAlarm q) s = .next u ∧ t.resp = u.resp ∧
      t.resp = s.resp ++ .alarmRaw (be16 (p.getD 116 0#8) (p.getD 117 0#8)) (be16 (p.getD 118 0#8) (p.getD 119 0#8))
        (be16 (p.getD 120 0#8) (p.getD 121 0#8)) (be16 (p.getD 122 0#8) (p.getD 123 0#8)) :: rest

/-- R109 with R113: RT_ALARM on a payload at the floor or above gives the same records as ALARM on its payload bytes
116 to 123, between an ALARM_RAW and its `END`. -/
def Obligations.RtAlarmAgreesWithAlarm : Prop :=
  ∀ (s : State) (payload : List Byte), 62 ≤ payload.length / 2 → s.nrec = 0#16 →
    ∃ t u v1 v2 v3 v4 recs e e', exec (.rtAlarm payload) s = .next t ∧ exec (.alarm ((payload.drop 116).take 8)) s = .next u ∧
      t.resp = s.resp ++ [.alarmRaw v1 v2 v3 v4] ++ recs ++ [e] ∧ u.resp = s.resp ++ recs ++ [e'] ∧
      (∀ tok ∈ recs, ∃ r b c w, tok = .alarmRec r b c w) ∧ t.nrec = u.nrec ∧ e.isEnd = true ∧ e'.isEnd = true

/-! ### What holds of every instruction -/

/-- R19: the flags of every `END` are 0 or 1, and 1 exactly for an RT_ALARM whose payload has exactly 62 registers. The
`END` of a request that selects no operation has flags 0 too. -/
def Obligations.TruncWarnIsExact : Prop :=
  (∀ (i : Instr) (s t : State), s.Fresh → exec i s = .next t →
    ∀ st c a f, Token.endTok st c a f ∈ t.resp →
      (f = 0#8 ∨ f = 1#8) ∧ (f = 1#8 ↔ ∃ payload, i = .rtAlarm payload ∧ payload.length / 2 = 62)) ∧
  (∀ (e : RequestError) (s : State), s.Fresh →
    ∀ st c a f, Token.endTok st c a f ∈ (s.rejectRequest e).resp → f = 0#8)

/-- R58: the response of every request ends in exactly one `END`; a wire-frame row emits none. That the response is whole
after one step is the model's choice (log entry 4). -/
def Obligations.OneEndPerRequest : Prop :=
  ∀ (i : Instr) (s : State), s.Fresh → ∃ t, exec i s = .next t ∧
    (i.isRequest = true → t.mode = .emitEnd ∧ endsOnce t.resp) ∧
    (i.isRequest = false → t.mode = s.mode ∧ ∃ tok, t.resp = [tok] ∧ tok.isEnd = false)

/-- R20, R35, R49: no instruction writes the request buffer, the ROM, the request's header fields or anything of the
host's, and no earlier token of the response is changed. That an instruction leaves `out` alone is the model's choice
(log entry 4): its tokens reach `out` in EMIT_END. -/
def Obligations.ExecLeavesTheRest : Prop :=
  ∀ (i : Instr) (s t : State), exec i s = .next t →
    t.op = s.op ∧ t.hdrBad = s.hdrBad ∧ t.dbuf = s.dbuf ∧ t.nrecv = s.nrecv ∧ t.ovf = s.ovf ∧ t.out = s.out ∧
    t.rom = s.rom ∧ t.host = s.host ∧ t.delivered = s.delivered ∧ s.resp <+: t.resp ∧
    (∀ a, memRead t.dbuf a = memRead s.dbuf a) ∧
    ((∀ buf, i ≠ .extract buf) → t.detPhase = s.detPhase ∧ t.detPend = s.detPend ∧ t.cand = s.cand) ∧
    (i.isRequest = false → t.pos = s.pos ∧ t.nrec = s.nrec ∧ t.endStatus = s.endStatus ∧ t.endAux = s.endAux)

/-! ### Encodings -/

/-- Every well-formed instruction, of all seven rows, is what its encoding decodes to, with every operand byte. -/
def Obligations.DecodeEncodeRoundTrip : Prop :=
  ∀ i : Instr, i.wellFormed = true → decodeIn i.space (encode i) = some i

/-- Bytes have at most one reading in each place: what they decode to encodes to them, belongs to that place, and is
well formed, but for an ALARM of the wrong length, which the operation itself rejects (R57). -/
def Obligations.EncodeDecodeRoundTrip : Prop :=
  ∀ (space : Space) (bytes : List Byte) (i : Instr), decodeIn space bytes = some i →
    encode i = bytes ∧ i.space = space ∧
      (i.wellFormed = true ∨ ∃ data, i = .alarm data ∧ data.length ≠ 8)

/-- R55, R66, R67: a header byte selects an operation exactly when bits [7:2] are zero, and each of the four values
selects its own. -/
def Obligations.HeaderByteSelectsOperation : Prop :=
  ∀ (h : Byte) (data : List Byte), data.length ≤ Config.bufMax →
    (4 ≤ h.toNat → decodeRequest h data = .error .reservedHeader) ∧
    (h = 0x00#8 → decodeRequest h data = .ok (.extract data)) ∧
    (h = 0x01#8 → decodeRequest h data = .ok (.unpack data)) ∧
    (h = 0x02#8 → decodeRequest h data = .ok (.alarm data)) ∧
    (h = 0x03#8 → decodeRequest h data = .ok (.rtAlarm data))

/-- A few words written out from R51, R53 and R55 decode to the instructions they stand for. -/
def Obligations.WrittenWordsDecode : Prop :=
  decodeIn .request [0b00000000#8, 0xD2#8, 0x03#8, 0x52#8] = some (.extract [0xD2#8, 0x03#8, 0x52#8]) ∧
  decodeIn .request [0b00000001#8, 0x12#8, 0x34#8] = some (.unpack [0x12#8, 0x34#8]) ∧
  decodeIn .request [0b00000010#8, 0x80#8, 0#8, 0#8, 0#8, 0#8, 0#8, 0#8, 0#8] =
    some (.alarm [0x80#8, 0#8, 0#8, 0#8, 0#8, 0#8, 0#8, 0#8]) ∧
  decodeIn .request [0b00000011#8] = some (.rtAlarm []) ∧
  decodeIn .request [0b00000100#8] = none ∧
  decodeIn .frame [0b11010010#8, 0b00000011#8, 0b01010010#8, 0x10#8, 0xAA#8, 0xBB#8] =
    some (.frameCfg [0x10#8, 0xAA#8, 0xBB#8]) ∧
  decodeIn .frame [0b11010010#8, 0b00000011#8, 0b01111100#8, 0x10#8, 0xAA#8, 0xBB#8] =
    some (.frameRt [0x10#8, 0xAA#8, 0xBB#8]) ∧
  decodeIn .frame [0b11010010#8, 0b00000011#8, 0b10011001#8] = some (.frameUnknown 0x99#8 [])

/-- R58 to R62: every legal token, serialized in front of any bytes, is read back whole, with those bytes left. -/
def Obligations.TokensReadBack : Prop :=
  ∀ (t : Token) (behind : List Byte), t.legal = true → readToken (t.bytes ++ behind) = some (t, behind)

/-- R58 to R62, R39, R53, R116: the bytes of each token: its tag, then its fields in order, 16-bit fields with the high
byte first; and the codes of the seven statuses and the two kinds. -/
def Obligations.TokensAreLaidOut : Prop :=
  let hi := fun (v : Reg16) => BitVec.ofNat 8 (v.toNat / 256)
  let lo := fun (v : Reg16) => BitVec.ofNat 8 (v.toNat % 256)
  (∀ idx cmd kind plen payload x y, (Token.frame idx cmd kind plen payload x y).bytes =
    [0x01, hi idx, lo idx, cmd, FrameKind.code kind, hi plen, lo plen] ++ payload ++ [x, y]) ∧
  (∀ idx st cmd clen, (Token.candErr idx st cmd clen).bytes =
    [0x02, hi idx, lo idx, Status.code st, cmd, hi clen, lo clen]) ∧
  (∀ idx v, (Token.reg idx v).bytes = [0x03, hi idx, lo idx, hi v, lo v]) ∧
  (∀ v1 v2 v3 v4, (Token.alarmRaw v1 v2 v3 v4).bytes =
    [0x04, hi v1, lo v1, hi v2, lo v2, hi v3, lo v3, hi v4, lo v4]) ∧
  (∀ r b c m, (Token.alarmRec r b c m).bytes = [0x05, r, b, c, hi m, lo m]) ∧
  (∀ st c a f, (Token.endTok st c a f).bytes = [0x0F, Status.code st, hi c, lo c, hi a, lo a, f]) ∧
  [Status.ok, .noFramesFound, .emptyPayload, .unknownCommand, .insufficientData, .badRequest, .overflow].map
    Status.code = [0, 1, 2, 3, 4, 5, 6] ∧
  [FrameKind.cfg, .rt].map FrameKind.code = [0x00, 0x01]

/-! ### The response channel -/

/-- R24, R25: in EMIT_END with `out` empty, the block moves the oldest token of the response to `out`; behind the last
one, the `END`, it is in IDLE. So it does whatever the host does but a reset: no move, a byte it sends, a token it waits
for, a wait, which the step consumes. That every token of the response leaves in EMIT_END, not `END` alone, is the
model's choice (log entry 4); that nothing else changes on the way back to IDLE is its reading (log entry 8). -/
def Obligations.EmitMovesOldestToken : Prop :=
  ∀ (s : State) (t : Token) (ts : List Token), s.mode = .emitEnd → s.out = none → s.resp = t :: ts →
    (s.host.head? ≠ some .wait → s.host.head? ≠ some .reset →
      step s = .next { s with out := some t, resp := ts, mode := if ts = [] then .idle else .emitEnd }) ∧
    (∀ ms, s.host = .wait :: ms →
      step s = .next { s with out := some t, resp := ts, mode := if ts = [] then .idle else .emitEnd, host := ms })

/-- R25: the host's consumption of a token empties `out` and delivers that token, in every phase, and changes nothing
else. -/
def Obligations.TakeDeliversToken : Prop :=
  ∀ (s : State) (t : Token) (ms : List HostMove), s.out = some t → s.host = .take :: ms →
    step s = .next { s with out := none, delivered := s.delivered ++ [t], host := ms }

/-- R25, R135, R141: while `out` is full, nothing changes in EMIT_END, whether the host has stopped or sends before it
drains; and a host that has stopped, or waits for a token, holds the block in IDLE and LOAD. A wait only passes. The
state is held, not final. That a full `out` holds a sent header in IDLE too is the model's choice (log entry 5). -/
def Obligations.BlockHoldsForHost : Prop :=
  ∀ s : State,
    (∀ t, s.out = some t → s.mode = .emitEnd → s.host = [] → step s = .next s) ∧
    (∀ t x ms, s.out = some t → s.mode = .emitEnd ∨ s.mode = .idle → s.host = .send x :: ms → step s = .next s) ∧
    (s.mode = .idle ∨ s.mode = .load → s.host = [] → step s = .next s) ∧
    (∀ ms, s.out = none → s.mode = .idle ∨ s.mode = .load → s.host = .take :: ms → step s = .next s) ∧
    (∀ ms, s.mode = .idle ∨ s.mode = .load ∨ s.mode = .emitEnd ∧ s.out ≠ none → s.host = .wait :: ms →
      step s = .next { s with host := ms })

/-- R25: no token of a response is lost or reordered. Every step but a reset keeps what has been produced and only adds
behind it, and what the host has consumed stays. -/
def Obligations.TokensAreNeverLost : Prop :=
  ∀ s t : State, s.Inv → step s = .next t → s.host.head? ≠ some .reset →
    s.produced <+: t.produced ∧ s.delivered <+: t.delivered

/-- R134: the block leaves IDLE only by a header the host sends. That it takes one only with `out` empty is the model's
choice (log entry 5). -/
def Obligations.OnlyHeaderLeavesIdle : Prop :=
  ∀ s t : State, step s = .next t → s.mode = .idle → t.mode ≠ .idle →
    ∃ x ms, s.host = .send x :: ms ∧ s.out = none ∧ t = { s with host := ms }.acceptHeader x

/-! ### The whole machine -/

/-- R22, R49: no step changes the ROM, a reset included. -/
def Obligations.RomIsNeverWritten : Prop :=
  ∀ s t : State, step s = .next t → t.rom = s.rom

/-- The invariant holds after reset. What `State.Inv` says of IDLE and EMIT_END and of a bad request's buffer rests on the
model's choices (log entries 4, 5, 6 and 8). -/
def Obligations.ResetMeetsInvariant : Prop := State.reset.Inv

/-- Every step keeps the invariant, from every state that meets it. What `State.Inv` says of IDLE and EMIT_END and of a
bad request's buffer rests on the model's choices (log entries 4, 5, 6 and 8). -/
def Obligations.StepKeepsInvariant : Prop :=
  ∀ s t : State, s.Inv → step s = .next t → t.Inv

/-- R34, R104, R117: from every state that meets the invariant the step answers a next state. No read is out of range,
no status stops the block, and no instruction is refused. -/
def Obligations.NoStepStops : Prop :=
  ∀ s : State, s.Inv → ∃ t, step s = .next t

/-- R14, R46, R135: a host that submits a request in a quiet state and consumes its tokens gets exactly the response the
pure functions give to the request's bytes and the ROM, and the block is quiet again, after a bounded number of
steps. The number counts the model's steps (log entry 4); the host's moves are a list of the model (log entry 3). -/
def Obligations.RequestGetsItsResponse : Prop :=
  ∀ (s : State) (h : Byte) (data : List Byte) (rest : List HostMove), s.quiet →
    s.host = submit s.rom h data ++ rest →
    ∃ t, run (data.length + 2 + 2 * (requestResponse s.rom h data).length) s = .next t ∧ t.quiet ∧
      t.delivered = s.delivered ++ requestResponse s.rom h data ∧ t.host = rest ∧ t.rom = s.rom

/-- R15, R29: nothing of earlier requests can be seen. From two quiet states with the same ROM and the same host moves to
come, whatever else they hold, any number of steps delivers the same tokens. -/
def Obligations.HistoryIsInvisible : Prop :=
  ∀ s t : State, s.Inv → t.Inv → s.quiet → t.quiet → s.rom = t.rom → s.host = t.host →
    ∀ k, ∃ s' t' d, run k s = .next s' ∧ run k t = .next t' ∧
      s'.delivered = s.delivered ++ d ∧ t'.delivered = t.delivered ++ d
end

