-- ==== Sys2Proof/Laws/State.lean ====
section
/-! SUPPORT. One lemma per field per update of the state: what each shared operation of Machine/Ops.lean,
Machine/Channel.lean and Machine/Alarm.lean leaves in each field. -/

namespace Sys2Proof.Machine

/-! ### `emit` -/

@[simp] theorem State.emit_mode (s : State) (t : Token) : (s.emit t).mode = s.mode := rfl
@[simp] theorem State.emit_op (s : State) (t : Token) : (s.emit t).op = s.op := rfl
@[simp] theorem State.emit_hdrBad (s : State) (t : Token) : (s.emit t).hdrBad = s.hdrBad := rfl
@[simp] theorem State.emit_dbuf (s : State) (t : Token) : (s.emit t).dbuf = s.dbuf := rfl
@[simp] theorem State.emit_nrecv (s : State) (t : Token) : (s.emit t).nrecv = s.nrecv := rfl
@[simp] theorem State.emit_ovf (s : State) (t : Token) : (s.emit t).ovf = s.ovf := rfl
@[simp] theorem State.emit_pos (s : State) (t : Token) : (s.emit t).pos = s.pos := rfl
@[simp] theorem State.emit_detPhase (s : State) (t : Token) : (s.emit t).detPhase = s.detPhase := rfl
@[simp] theorem State.emit_detPend (s : State) (t : Token) : (s.emit t).detPend = s.detPend := rfl
@[simp] theorem State.emit_cand (s : State) (t : Token) : (s.emit t).cand = s.cand := rfl
@[simp] theorem State.emit_ncand (s : State) (t : Token) : (s.emit t).ncand = s.ncand := rfl
@[simp] theorem State.emit_nrec (s : State) (t : Token) : (s.emit t).nrec = s.nrec := rfl
@[simp] theorem State.emit_endStatus (s : State) (t : Token) : (s.emit t).endStatus = s.endStatus := rfl
@[simp] theorem State.emit_endAux (s : State) (t : Token) : (s.emit t).endAux = s.endAux := rfl
@[simp] theorem State.emit_out (s : State) (t : Token) : (s.emit t).out = s.out := rfl
@[simp] theorem State.emit_rom (s : State) (t : Token) : (s.emit t).rom = s.rom := rfl
@[simp] theorem State.emit_resp (s : State) (t : Token) : (s.emit t).resp = s.resp ++ [t] := rfl
@[simp] theorem State.emit_host (s : State) (t : Token) : (s.emit t).host = s.host := rfl
@[simp] theorem State.emit_delivered (s : State) (t : Token) : (s.emit t).delivered = s.delivered := rfl

/-! ### `emitAll` -/

@[simp] theorem State.emitAll_mode (s : State) (ts : List Token) : (s.emitAll ts).mode = s.mode := rfl
@[simp] theorem State.emitAll_op (s : State) (ts : List Token) : (s.emitAll ts).op = s.op := rfl
@[simp] theorem State.emitAll_hdrBad (s : State) (ts : List Token) : (s.emitAll ts).hdrBad = s.hdrBad := rfl
@[simp] theorem State.emitAll_dbuf (s : State) (ts : List Token) : (s.emitAll ts).dbuf = s.dbuf := rfl
@[simp] theorem State.emitAll_nrecv (s : State) (ts : List Token) : (s.emitAll ts).nrecv = s.nrecv := rfl
@[simp] theorem State.emitAll_ovf (s : State) (ts : List Token) : (s.emitAll ts).ovf = s.ovf := rfl
@[simp] theorem State.emitAll_pos (s : State) (ts : List Token) : (s.emitAll ts).pos = s.pos := rfl
@[simp] theorem State.emitAll_detPhase (s : State) (ts : List Token) : (s.emitAll ts).detPhase = s.detPhase := rfl
@[simp] theorem State.emitAll_detPend (s : State) (ts : List Token) : (s.emitAll ts).detPend = s.detPend := rfl
@[simp] theorem State.emitAll_cand (s : State) (ts : List Token) : (s.emitAll ts).cand = s.cand := rfl
@[simp] theorem State.emitAll_ncand (s : State) (ts : List Token) : (s.emitAll ts).ncand = s.ncand := rfl
@[simp] theorem State.emitAll_nrec (s : State) (ts : List Token) : (s.emitAll ts).nrec = s.nrec := rfl
@[simp] theorem State.emitAll_endStatus (s : State) (ts : List Token) : (s.emitAll ts).endStatus = s.endStatus := rfl
@[simp] theorem State.emitAll_endAux (s : State) (ts : List Token) : (s.emitAll ts).endAux = s.endAux := rfl
@[simp] theorem State.emitAll_out (s : State) (ts : List Token) : (s.emitAll ts).out = s.out := rfl
@[simp] theorem State.emitAll_rom (s : State) (ts : List Token) : (s.emitAll ts).rom = s.rom := rfl
@[simp] theorem State.emitAll_resp (s : State) (ts : List Token) : (s.emitAll ts).resp = s.resp ++ ts := rfl
@[simp] theorem State.emitAll_host (s : State) (ts : List Token) : (s.emitAll ts).host = s.host := rfl
@[simp] theorem State.emitAll_delivered (s : State) (ts : List Token) : (s.emitAll ts).delivered = s.delivered := rfl

/-! ### `emitRecords` -/

@[simp] theorem State.emitRecords_mode (s : State) (ts : List Token) : (s.emitRecords ts).mode = s.mode := rfl
@[simp] theorem State.emitRecords_op (s : State) (ts : List Token) : (s.emitRecords ts).op = s.op := rfl
@[simp] theorem State.emitRecords_hdrBad (s : State) (ts : List Token) : (s.emitRecords ts).hdrBad = s.hdrBad := rfl
@[simp] theorem State.emitRecords_dbuf (s : State) (ts : List Token) : (s.emitRecords ts).dbuf = s.dbuf := rfl
@[simp] theorem State.emitRecords_nrecv (s : State) (ts : List Token) : (s.emitRecords ts).nrecv = s.nrecv := rfl
@[simp] theorem State.emitRecords_ovf (s : State) (ts : List Token) : (s.emitRecords ts).ovf = s.ovf := rfl
@[simp] theorem State.emitRecords_pos (s : State) (ts : List Token) : (s.emitRecords ts).pos = s.pos := rfl
@[simp] theorem State.emitRecords_detPhase (s : State) (ts : List Token) : (s.emitRecords ts).detPhase = s.detPhase := rfl
@[simp] theorem State.emitRecords_detPend (s : State) (ts : List Token) : (s.emitRecords ts).detPend = s.detPend := rfl
@[simp] theorem State.emitRecords_cand (s : State) (ts : List Token) : (s.emitRecords ts).cand = s.cand := rfl
@[simp] theorem State.emitRecords_ncand (s : State) (ts : List Token) : (s.emitRecords ts).ncand = s.ncand := rfl
@[simp] theorem State.emitRecords_nrec (s : State) (ts : List Token) : (s.emitRecords ts).nrec = s.nrec + BitVec.ofNat 16 ts.length := rfl
@[simp] theorem State.emitRecords_endStatus (s : State) (ts : List Token) : (s.emitRecords ts).endStatus = s.endStatus := rfl
@[simp] theorem State.emitRecords_endAux (s : State) (ts : List Token) : (s.emitRecords ts).endAux = s.endAux := rfl
@[simp] theorem State.emitRecords_out (s : State) (ts : List Token) : (s.emitRecords ts).out = s.out := rfl
@[simp] theorem State.emitRecords_rom (s : State) (ts : List Token) : (s.emitRecords ts).rom = s.rom := rfl
@[simp] theorem State.emitRecords_resp (s : State) (ts : List Token) : (s.emitRecords ts).resp = s.resp ++ ts := rfl
@[simp] theorem State.emitRecords_host (s : State) (ts : List Token) : (s.emitRecords ts).host = s.host := rfl
@[simp] theorem State.emitRecords_delivered (s : State) (ts : List Token) : (s.emitRecords ts).delivered = s.delivered := rfl

/-! ### `walked` -/

@[simp] theorem State.walked_mode (s : State) (n : Nat) : (s.walked n).mode = s.mode := rfl
@[simp] theorem State.walked_op (s : State) (n : Nat) : (s.walked n).op = s.op := rfl
@[simp] theorem State.walked_hdrBad (s : State) (n : Nat) : (s.walked n).hdrBad = s.hdrBad := rfl
@[simp] theorem State.walked_dbuf (s : State) (n : Nat) : (s.walked n).dbuf = s.dbuf := rfl
@[simp] theorem State.walked_nrecv (s : State) (n : Nat) : (s.walked n).nrecv = s.nrecv := rfl
@[simp] theorem State.walked_ovf (s : State) (n : Nat) : (s.walked n).ovf = s.ovf := rfl
@[simp] theorem State.walked_pos (s : State) (n : Nat) : (s.walked n).pos = s.pos + n := rfl
@[simp] theorem State.walked_detPhase (s : State) (n : Nat) : (s.walked n).detPhase = s.detPhase := rfl
@[simp] theorem State.walked_detPend (s : State) (n : Nat) : (s.walked n).detPend = s.detPend := rfl
@[simp] theorem State.walked_cand (s : State) (n : Nat) : (s.walked n).cand = s.cand := rfl
@[simp] theorem State.walked_ncand (s : State) (n : Nat) : (s.walked n).ncand = s.ncand := rfl
@[simp] theorem State.walked_nrec (s : State) (n : Nat) : (s.walked n).nrec = s.nrec := rfl
@[simp] theorem State.walked_endStatus (s : State) (n : Nat) : (s.walked n).endStatus = s.endStatus := rfl
@[simp] theorem State.walked_endAux (s : State) (n : Nat) : (s.walked n).endAux = s.endAux := rfl
@[simp] theorem State.walked_out (s : State) (n : Nat) : (s.walked n).out = s.out := rfl
@[simp] theorem State.walked_rom (s : State) (n : Nat) : (s.walked n).rom = s.rom := rfl
@[simp] theorem State.walked_resp (s : State) (n : Nat) : (s.walked n).resp = s.resp := rfl
@[simp] theorem State.walked_host (s : State) (n : Nat) : (s.walked n).host = s.host := rfl
@[simp] theorem State.walked_delivered (s : State) (n : Nat) : (s.walked n).delivered = s.delivered := rfl

/-! ### `endWith` -/

@[simp] theorem State.endWith_mode (s : State) (st : Status) (c a : Reg16) (f : Byte) : (s.endWith st c a f).mode = .emitEnd := rfl
@[simp] theorem State.endWith_op (s : State) (st : Status) (c a : Reg16) (f : Byte) : (s.endWith st c a f).op = s.op := rfl
@[simp] theorem State.endWith_hdrBad (s : State) (st : Status) (c a : Reg16) (f : Byte) : (s.endWith st c a f).hdrBad = s.hdrBad := rfl
@[simp] theorem State.endWith_dbuf (s : State) (st : Status) (c a : Reg16) (f : Byte) : (s.endWith st c a f).dbuf = s.dbuf := rfl
@[simp] theorem State.endWith_nrecv (s : State) (st : Status) (c a : Reg16) (f : Byte) : (s.endWith st c a f).nrecv = s.nrecv := rfl
@[simp] theorem State.endWith_ovf (s : State) (st : Status) (c a : Reg16) (f : Byte) : (s.endWith st c a f).ovf = s.ovf := rfl
@[simp] theorem State.endWith_pos (s : State) (st : Status) (c a : Reg16) (f : Byte) : (s.endWith st c a f).pos = s.pos := rfl
@[simp] theorem State.endWith_detPhase (s : State) (st : Status) (c a : Reg16) (f : Byte) : (s.endWith st c a f).detPhase = s.detPhase := rfl
@[simp] theorem State.endWith_detPend (s : State) (st : Status) (c a : Reg16) (f : Byte) : (s.endWith st c a f).detPend = s.detPend := rfl
@[simp] theorem State.endWith_cand (s : State) (st : Status) (c a : Reg16) (f : Byte) : (s.endWith st c a f).cand = s.cand := rfl
@[simp] theorem State.endWith_ncand (s : State) (st : Status) (c a : Reg16) (f : Byte) : (s.endWith st c a f).ncand = s.ncand := rfl
@[simp] theorem State.endWith_nrec (s : State) (st : Status) (c a : Reg16) (f : Byte) : (s.endWith st c a f).nrec = s.nrec := rfl
@[simp] theorem State.endWith_endStatus (s : State) (st : Status) (c a : Reg16) (f : Byte) : (s.endWith st c a f).endStatus = st := rfl
@[simp] theorem State.endWith_endAux (s : State) (st : Status) (c a : Reg16) (f : Byte) : (s.endWith st c a f).endAux = a := rfl
@[simp] theorem State.endWith_out (s : State) (st : Status) (c a : Reg16) (f : Byte) : (s.endWith st c a f).out = s.out := rfl
@[simp] theorem State.endWith_rom (s : State) (st : Status) (c a : Reg16) (f : Byte) : (s.endWith st c a f).rom = s.rom := rfl
@[simp] theorem State.endWith_resp (s : State) (st : Status) (c a : Reg16) (f : Byte) : (s.endWith st c a f).resp = s.resp ++ [.endTok st c a f] := rfl
@[simp] theorem State.endWith_host (s : State) (st : Status) (c a : Reg16) (f : Byte) : (s.endWith st c a f).host = s.host := rfl
@[simp] theorem State.endWith_delivered (s : State) (st : Status) (c a : Reg16) (f : Byte) : (s.endWith st c a f).delivered = s.delivered := rfl

/-! ### `raise` -/

@[simp] theorem State.raise_mode (s : State) (st : Status) (a : Reg16) : (s.raise st a).mode = .emitEnd := rfl
@[simp] theorem State.raise_op (s : State) (st : Status) (a : Reg16) : (s.raise st a).op = s.op := rfl
@[simp] theorem State.raise_hdrBad (s : State) (st : Status) (a : Reg16) : (s.raise st a).hdrBad = s.hdrBad := rfl
@[simp] theorem State.raise_dbuf (s : State) (st : Status) (a : Reg16) : (s.raise st a).dbuf = s.dbuf := rfl
@[simp] theorem State.raise_nrecv (s : State) (st : Status) (a : Reg16) : (s.raise st a).nrecv = s.nrecv := rfl
@[simp] theorem State.raise_ovf (s : State) (st : Status) (a : Reg16) : (s.raise st a).ovf = s.ovf := rfl
@[simp] theorem State.raise_pos (s : State) (st : Status) (a : Reg16) : (s.raise st a).pos = s.pos := rfl
@[simp] theorem State.raise_detPhase (s : State) (st : Status) (a : Reg16) : (s.raise st a).detPhase = s.detPhase := rfl
@[simp] theorem State.raise_detPend (s : State) (st : Status) (a : Reg16) : (s.raise st a).detPend = s.detPend := rfl
@[simp] theorem State.raise_cand (s : State) (st : Status) (a : Reg16) : (s.raise st a).cand = s.cand := rfl
@[simp] theorem State.raise_ncand (s : State) (st : Status) (a : Reg16) : (s.raise st a).ncand = s.ncand := rfl
@[simp] theorem State.raise_nrec (s : State) (st : Status) (a : Reg16) : (s.raise st a).nrec = s.nrec := rfl
@[simp] theorem State.raise_endStatus (s : State) (st : Status) (a : Reg16) : (s.raise st a).endStatus = st := rfl
@[simp] theorem State.raise_endAux (s : State) (st : Status) (a : Reg16) : (s.raise st a).endAux = a := rfl
@[simp] theorem State.raise_out (s : State) (st : Status) (a : Reg16) : (s.raise st a).out = s.out := rfl
@[simp] theorem State.raise_rom (s : State) (st : Status) (a : Reg16) : (s.raise st a).rom = s.rom := rfl
@[simp] theorem State.raise_resp (s : State) (st : Status) (a : Reg16) : (s.raise st a).resp = s.resp ++ [.endTok st 0#16 a 0#8] := rfl
@[simp] theorem State.raise_host (s : State) (st : Status) (a : Reg16) : (s.raise st a).host = s.host := rfl
@[simp] theorem State.raise_delivered (s : State) (st : Status) (a : Reg16) : (s.raise st a).delivered = s.delivered := rfl

/-! ### `hostTake` -/

@[simp] theorem State.hostTake_mode (s : State) (t : Token) : (s.hostTake t).mode = s.mode := rfl
@[simp] theorem State.hostTake_op (s : State) (t : Token) : (s.hostTake t).op = s.op := rfl
@[simp] theorem State.hostTake_hdrBad (s : State) (t : Token) : (s.hostTake t).hdrBad = s.hdrBad := rfl
@[simp] theorem State.hostTake_dbuf (s : State) (t : Token) : (s.hostTake t).dbuf = s.dbuf := rfl
@[simp] theorem State.hostTake_nrecv (s : State) (t : Token) : (s.hostTake t).nrecv = s.nrecv := rfl
@[simp] theorem State.hostTake_ovf (s : State) (t : Token) : (s.hostTake t).ovf = s.ovf := rfl
@[simp] theorem State.hostTake_pos (s : State) (t : Token) : (s.hostTake t).pos = s.pos := rfl
@[simp] theorem State.hostTake_detPhase (s : State) (t : Token) : (s.hostTake t).detPhase = s.detPhase := rfl
@[simp] theorem State.hostTake_detPend (s : State) (t : Token) : (s.hostTake t).detPend = s.detPend := rfl
@[simp] theorem State.hostTake_cand (s : State) (t : Token) : (s.hostTake t).cand = s.cand := rfl
@[simp] theorem State.hostTake_ncand (s : State) (t : Token) : (s.hostTake t).ncand = s.ncand := rfl
@[simp] theorem State.hostTake_nrec (s : State) (t : Token) : (s.hostTake t).nrec = s.nrec := rfl
@[simp] theorem State.hostTake_endStatus (s : State) (t : Token) : (s.hostTake t).endStatus = s.endStatus := rfl
@[simp] theorem State.hostTake_endAux (s : State) (t : Token) : (s.hostTake t).endAux = s.endAux := rfl
@[simp] theorem State.hostTake_out (s : State) (t : Token) : (s.hostTake t).out = none := rfl
@[simp] theorem State.hostTake_rom (s : State) (t : Token) : (s.hostTake t).rom = s.rom := rfl
@[simp] theorem State.hostTake_resp (s : State) (t : Token) : (s.hostTake t).resp = s.resp := rfl
@[simp] theorem State.hostTake_host (s : State) (t : Token) : (s.hostTake t).host = s.host := rfl
@[simp] theorem State.hostTake_delivered (s : State) (t : Token) : (s.hostTake t).delivered = s.delivered ++ [t] := rfl

/-! ### `clearWork` -/

@[simp] theorem State.clearWork_mode (s : State) : (s.clearWork).mode = .idle := rfl
@[simp] theorem State.clearWork_op (s : State) : (s.clearWork).op = .extract := rfl
@[simp] theorem State.clearWork_hdrBad (s : State) : (s.clearWork).hdrBad = false := rfl
@[simp] theorem State.clearWork_dbuf (s : State) : (s.clearWork).dbuf = [] := rfl
@[simp] theorem State.clearWork_nrecv (s : State) : (s.clearWork).nrecv = 0 := rfl
@[simp] theorem State.clearWork_ovf (s : State) : (s.clearWork).ovf = false := rfl
@[simp] theorem State.clearWork_pos (s : State) : (s.clearWork).pos = 0 := rfl
@[simp] theorem State.clearWork_detPhase (s : State) : (s.clearWork).detPhase = .prefixBytes := rfl
@[simp] theorem State.clearWork_detPend (s : State) : (s.clearWork).detPend = false := rfl
@[simp] theorem State.clearWork_cand (s : State) : (s.clearWork).cand = [] := rfl
@[simp] theorem State.clearWork_ncand (s : State) : (s.clearWork).ncand = 0#16 := rfl
@[simp] theorem State.clearWork_nrec (s : State) : (s.clearWork).nrec = 0#16 := rfl
@[simp] theorem State.clearWork_endStatus (s : State) : (s.clearWork).endStatus = .ok := rfl
@[simp] theorem State.clearWork_endAux (s : State) : (s.clearWork).endAux = 0#16 := rfl
@[simp] theorem State.clearWork_out (s : State) : (s.clearWork).out = none := rfl
@[simp] theorem State.clearWork_rom (s : State) : (s.clearWork).rom = s.rom := rfl
@[simp] theorem State.clearWork_resp (s : State) : (s.clearWork).resp = [] := rfl
@[simp] theorem State.clearWork_host (s : State) : (s.clearWork).host = s.host := rfl
@[simp] theorem State.clearWork_delivered (s : State) : (s.clearWork).delivered = s.delivered := rfl

/-! ### `acceptHeader` -/

@[simp] theorem State.acceptHeader_mode (s : State) (x : Xfer) : (s.acceptHeader x).mode = phaseAfter x.last := rfl
@[simp] theorem State.acceptHeader_op (s : State) (x : Xfer) : (s.acceptHeader x).op = headerOp x.byte := rfl
@[simp] theorem State.acceptHeader_hdrBad (s : State) (x : Xfer) : (s.acceptHeader x).hdrBad = (headerReserved x.byte != 0#6) := rfl
@[simp] theorem State.acceptHeader_dbuf (s : State) (x : Xfer) : (s.acceptHeader x).dbuf = [] := rfl
@[simp] theorem State.acceptHeader_nrecv (s : State) (x : Xfer) : (s.acceptHeader x).nrecv = 0 := rfl
@[simp] theorem State.acceptHeader_ovf (s : State) (x : Xfer) : (s.acceptHeader x).ovf = false := rfl
@[simp] theorem State.acceptHeader_pos (s : State) (x : Xfer) : (s.acceptHeader x).pos = 0 := rfl
@[simp] theorem State.acceptHeader_detPhase (s : State) (x : Xfer) : (s.acceptHeader x).detPhase = .prefixBytes := rfl
@[simp] theorem State.acceptHeader_detPend (s : State) (x : Xfer) : (s.acceptHeader x).detPend = false := rfl
@[simp] theorem State.acceptHeader_cand (s : State) (x : Xfer) : (s.acceptHeader x).cand = [] := rfl
@[simp] theorem State.acceptHeader_ncand (s : State) (x : Xfer) : (s.acceptHeader x).ncand = 0#16 := rfl
@[simp] theorem State.acceptHeader_nrec (s : State) (x : Xfer) : (s.acceptHeader x).nrec = 0#16 := rfl
@[simp] theorem State.acceptHeader_endStatus (s : State) (x : Xfer) : (s.acceptHeader x).endStatus = .ok := rfl
@[simp] theorem State.acceptHeader_endAux (s : State) (x : Xfer) : (s.acceptHeader x).endAux = 0#16 := rfl
@[simp] theorem State.acceptHeader_out (s : State) (x : Xfer) : (s.acceptHeader x).out = none := rfl
@[simp] theorem State.acceptHeader_rom (s : State) (x : Xfer) : (s.acceptHeader x).rom = s.rom := rfl
@[simp] theorem State.acceptHeader_resp (s : State) (x : Xfer) : (s.acceptHeader x).resp = [] := rfl
@[simp] theorem State.acceptHeader_host (s : State) (x : Xfer) : (s.acceptHeader x).host = s.host := rfl
@[simp] theorem State.acceptHeader_delivered (s : State) (x : Xfer) : (s.acceptHeader x).delivered = s.delivered := rfl

/-! ### Operations that are another one's name -/

@[simp] theorem State.assertReset_eq (s : State) : s.assertReset = s.clearWork := rfl

@[simp] theorem State.rejectRequest_eq (s : State) (e : RequestError) :
    s.rejectRequest e = s.raise (rejectStatus e) 0#16 := rfl

theorem State.raise_eq (s : State) (st : Status) (a : Reg16) : s.raise st a = s.endWith st 0#16 a 0#8 := rfl

/-! ### `drain`: what it does in each case -/

@[simp] theorem State.drain_of_full (s : State) (t : Token) (h : s.out = some t) : s.drain = s := by
  simp [State.drain, h]

theorem State.drain_of_last (s : State) (t : Token) (ho : s.out = none) (hr : s.resp = [t]) :
    s.drain = { s with out := some t, resp := [], mode := .idle } := by
  simp [State.drain, ho, hr]

theorem State.drain_of_more (s : State) (t u : Token) (ts : List Token) (ho : s.out = none)
    (hr : s.resp = t :: u :: ts) : s.drain = { s with out := some t, resp := u :: ts } := by
  simp [State.drain, ho, hr]

/-- Everything `drain` can do. -/
theorem State.drain_cases (s : State) :
    (∃ t, s.out = some t ∧ s.drain = s) ∨
    (s.out = none ∧ s.resp = [] ∧ s.drain = { s with mode := .idle }) ∨
    (∃ t, s.out = none ∧ s.resp = [t] ∧ s.drain = { s with out := some t, resp := [], mode := .idle }) ∨
    (∃ t u ts, s.out = none ∧ s.resp = t :: u :: ts ∧ s.drain = { s with out := some t, resp := u :: ts }) := by
  rcases ho : s.out with _ | t
  · rcases hr : s.resp with _ | ⟨t, _ | ⟨u, ts⟩⟩
    · exact .inr (.inl ⟨rfl, rfl, by simp [State.drain, ho, hr]⟩)
    · exact .inr (.inr (.inl ⟨t, rfl, rfl, State.drain_of_last s t ho hr⟩))
    · exact .inr (.inr (.inr ⟨t, u, ts, rfl, rfl, State.drain_of_more s t u ts ho hr⟩))
  · exact .inl ⟨t, rfl, State.drain_of_full s t ho⟩

/-! ### `acceptData`: the three ways a data byte is met -/

theorem State.acceptData_of_full (s : State) (x : Xfer) (h : Config.bufMax ≤ s.nrecv) :
    s.acceptData x = { s with ovf := true, nrecv := Config.bufMax + 1, mode := phaseAfter x.last } := by
  simp [State.acceptData, h]

theorem State.acceptData_of_bad (s : State) (x : Xfer) (h : s.nrecv < Config.bufMax) (hb : s.hdrBad = true) :
    s.acceptData x = { s with nrecv := s.nrecv + 1, mode := phaseAfter x.last } := by
  simp [State.acceptData, Nat.not_le.mpr h, hb]

theorem State.acceptData_of_good (s : State) (x : Xfer) (h : s.nrecv < Config.bufMax) (hb : s.hdrBad = false) :
    s.acceptData x =
      { s with dbuf := s.dbuf ++ [x.byte], nrecv := s.nrecv + 1, mode := phaseAfter x.last } := by
  simp [State.acceptData, Nat.not_le.mpr h, hb]

end Sys2Proof.Machine
end

