-- ==== Sys2Proof/Laws/Ops.lean ====
section
/-! SUPPORT. What the reads and the shared operations of Machine/Operands.lean and Machine/Ops.lean do: each in-range
read succeeds, RU's loop gives the pure `regs`, and the buffer bound is kept. -/

namespace Sys2Proof.Machine

/-! ### Outcomes -/

@[simp] theorem outcomeOf_ok (s : State) : outcomeOf (.ok s) = .next s := rfl

@[simp] theorem outcomeOf_error (f : Fault) : outcomeOf (.error f) = .fault f := rfl

/-- A meaning over reads that all succeed answers a next state. -/
theorem outcomeOf_next {e : Except Fault State} {t : State} : outcomeOf e = .next t ↔ e = .ok t := by
  cases e <;> simp [outcomeOf]

/-! ### Guarded reads -/

theorem memRead_ok {buf : Memory} {i : Nat} (h : i < buf.length) : memRead buf i = .ok buf[i] := by
  simp [memRead, List.getElem?_eq_getElem h]

/-- A read within range, for a reader that has a default. -/
theorem memRead_getD {buf : Memory} {i : Nat} (h : i < buf.length) : memRead buf i = .ok (buf.getD i 0#8) := by
  rw [memRead_ok h, List.getD_eq_getElem _ _ h]

theorem memRead_error {buf : Memory} {i : Nat} (h : buf.length ≤ i) : memRead buf i = .error .readRange := by
  simp [memRead, List.getElem?_eq_none h]

theorem readReg_ok {payload : Memory} {k : Nat} (h : 2 * k + 1 < payload.length) :
    readReg payload k = .ok (be16 payload[2 * k] payload[2 * k + 1]) := by
  simp [readReg, memRead_ok h, memRead_ok (Nat.lt_of_succ_lt h), bind, Except.bind, pure, Except.pure]

theorem regRead_ok {rs : List Reg16} {k : Nat} (h : k < rs.length) : regRead rs k = .ok rs[k] := by
  simp [regRead, List.getElem?_eq_getElem h]

theorem romRead_ok {rom : AlarmRom} {r c : Nat} (hr : 1 ≤ r) (hr' : r ≤ 4) (hc : c < 16) :
    romRead rom r c = .ok (rom[(r - 1) * 16 + c]'(by simp only [Config.romSize, Config.nAlarmRegs, Config.alarmBits]; omega)) := by
  have h : romAddr r c < Config.romSize := by
    simp only [romAddr, Config.romSize, Config.nAlarmRegs, Config.alarmBits]; omega
  simp only [romRead, Config.nAlarmRegs, Config.alarmBits, hr, hr', hc, and_self, ↓reduceIte]
  rw [Vector.getElem?_eq_getElem h]
  simp [romAddr]

/-! ### `gather` -/

/-- A loop whose every round succeeds gives the joined results. -/
theorem gather_ok {α β : Type} {f : α → Except Fault (List β)} {g : α → List β} {l : List α}
    (h : ∀ a ∈ l, f a = .ok (g a)) : gather f l = .ok (l.flatMap g) := by
  induction l with
  | nil => rfl
  | cons a as ih =>
    have ha := h a (by simp)
    have has := ih fun x hx => h x (by simp [hx])
    simp [gather, ha, has, bind, Except.bind, pure, Except.pure]

/-! ### RU -/

theorem regs_length (payload : List Byte) : (regs payload).length = payload.length / 2 := by
  induction payload using regs.induct with
  | case1 hi lo rest ih => simp [regs, ih]; omega
  | case2 l h =>
    match l, h with
    | [], _ => rfl
    | [_], _ => simp [regs]
    | a :: b :: r, h => exact absurd rfl (h a b r)

theorem regs_getElem (payload : List Byte) (k : Nat) (h : 2 * k + 1 < payload.length) :
    (regs payload)[k]'(by rw [regs_length]; omega) = be16 payload[2 * k] payload[2 * k + 1] := by
  induction payload using regs.induct generalizing k with
  | case1 hi lo rest ih =>
    cases k with
    | zero => rfl
    | succ k =>
      simp only [List.length_cons] at h
      have := ih k (by omega)
      simpa [regs, Nat.mul_add] using this
  | case2 l hl =>
    match l, hl with
    | [], _ => simp at h
    | [_], _ => simp at h
    | a :: b :: r, hl => exact absurd rfl (hl a b r)

/-- RU's loop of guarded reads gives the pure function, for every payload: no read of it is out of range. -/
theorem readRegs_eq (payload : Memory) : readRegs payload = .ok (regs payload) := by
  unfold readRegs
  rw [gather_ok (g := fun k => [be16 (payload.getD (2 * k) 0#8) (payload.getD (2 * k + 1) 0#8)])]
  · congr 1
    rw [← List.map_eq_flatMap]
    apply List.ext_getElem
    · simp [regs_length]
    · intro k h1 h2
      simp only [List.length_map, List.length_range, Config.regBytes] at h1
      rw [regs_getElem payload k (by omega)]
      simp [List.getElem?_eq_getElem (show 2 * k < payload.length by omega),
        List.getElem?_eq_getElem (show 2 * k + 1 < payload.length by omega)]
  · intro k hk
    simp only [List.mem_range, Config.regBytes] at hk
    have h : 2 * k + 1 < payload.length := by omega
    simp [readReg_ok h, bind, Except.bind, pure, Except.pure, List.getElem?_eq_getElem h,
      List.getElem?_eq_getElem (Nat.lt_of_succ_lt h)]

theorem regTokens_eq (k : Nat) (vs : List Reg16) :
    regTokens k vs = vs.mapIdx fun i v => .reg (BitVec.ofNat 16 (k + i)) v := by
  induction vs generalizing k with
  | nil => rfl
  | cons v vs ih => simp [regTokens, ih, List.mapIdx_cons, Nat.add_assoc, Nat.add_comm 1]

/-- A frame's header is as long as `HDR_LEN` says (R51, R6). -/
theorem wireFrame_length (cmd : Byte) (tail : List Byte) :
    (wireFrame cmd tail).length = Config.hdrLen + tail.length := Nat.add_comm tail.length 3

/-! ### The request buffer -/

@[simp] theorem Memory.wf_iff (m : Memory) : Memory.wf m = true ↔ m.length ≤ Config.bufMax := by
  simp [Memory.wf]

theorem State.reset_dbuf_wf : Memory.wf State.reset.dbuf = true := by simp [State.reset]

theorem State.acceptHeader_dbuf_wf (s : State) (x : Xfer) : Memory.wf (s.acceptHeader x).dbuf = true := by simp

/-- The one operation that grows the request buffer keeps its bound, where `nrecv` counts at least its bytes. -/
theorem State.acceptData_dbuf_wf (s : State) (x : Xfer) (h : Memory.wf s.dbuf = true)
    (hn : s.dbuf.length ≤ s.nrecv) : Memory.wf (s.acceptData x).dbuf = true := by
  rw [Memory.wf_iff] at h ⊢
  unfold State.acceptData
  split
  · exact h
  · split
    · exact h
    · simp only [List.length_append, List.length_singleton]; omega

end Sys2Proof.Machine
end

