-- ==== Sys2Proof/Laws/Alarm.lean ====
section
/-! SUPPORT. AD's lane loop gives the pure `alarms` (spec/42_alarm_decoder.md R98): no ROM read of it is out of range
(R104), and its records are those of the set bits in order. -/

namespace Sys2Proof.Machine

/-- Joining one-element lists where a test holds is filtering and mapping. -/
theorem flatMap_ite_singleton {α β : Type} (p : α → Bool) (f : α → β) (l : List α) :
    (l.flatMap fun a => if p a then [f a] else []) = (l.filter p).map f := by
  induction l with
  | nil => rfl
  | cons a as ih => cases h : p a <;> simp [List.flatMap_cons, h, ih]

/-- The record of lane `b` of register `r`, as the token R61 gives it. -/
theorem alarmRecord_token (rom : AlarmRom) (r : Fin 4) (b : Fin 16) :
    (alarmRecord rom r b).token =
      .alarmRec (BitVec.ofNat 8 (r.val + 1)) (BitVec.ofNat 8 b.val) (BitVec.ofNat 8 (15 - b.val))
        (rom[r.val * 16 + (15 - b.val)]'(romIndex_lt r (caseOf b))) := rfl

/-- The word of a record is the ROM's at its address (R65). -/
theorem alarmRecord_msg (rom : AlarmRom) (r : Fin 4) (b : Fin 16) :
    rom[r.val * 16 + (15 - b.val)]? = some (alarmRecord rom r b).msg :=
  Vector.getElem?_eq_getElem (romIndex_lt r (caseOf b))

/-- One lane: a record where the bit is set, nothing where it is clear. -/
theorem alarmLane_ok (rom : AlarmRom) (r : Fin 4) (v : Reg16) (b : Fin 16) :
    alarmLane rom (r.val + 1) v b.val =
      .ok (if v.getLsbD b.val then [(alarmRecord rom r b).token] else []) := by
  unfold alarmLane
  split
  · have hr : r.val + 1 ≤ 4 := by omega
    have hc : caseIndex b.val < 16 := by simp only [caseIndex, Config.alarmBits]; omega
    rw [romRead_ok (by omega) hr hc]
    simp [bind, Except.bind, pure, Except.pure, alarmRecord_token, caseIndex]
    rfl
  · rfl

/-- One register: its records in ascending bit index. -/
theorem alarmLanes_ok (rom : AlarmRom) (r : Fin 4) (v : Reg16) :
    gather (alarmLane rom (r.val + 1) v) (List.range Config.alarmBits) =
      .ok (((List.finRange 16).filter fun b => v.getLsbD b.val).map fun b => (alarmRecord rom r b).token) := by
  have hrange : List.range Config.alarmBits = (List.finRange 16).map Fin.val := by decide
  rw [hrange, ← flatMap_ite_singleton]
  have key : ∀ l : List (Fin 16), gather (alarmLane rom (r.val + 1) v) (l.map Fin.val) =
      .ok (l.flatMap fun b => if v.getLsbD b.val then [(alarmRecord rom r b).token] else []) := by
    intro l
    induction l with
    | nil => rfl
    | cons b bs ih =>
      simp only [List.map_cons, gather, alarmLane_ok, ih, bind, Except.bind, pure, Except.pure, List.flatMap_cons]
  exact key _

/-- AD's loop gives the tokens of the pure function's records, for every ROM and every four values. -/
theorem decodeAlarms_eq (rom : AlarmRom) (v1 v2 v3 v4 : Reg16) :
    decodeAlarms rom v1 v2 v3 v4 = .ok ((alarms rom ![v1, v2, v3, v4]).map AlarmRecord.token) := by
  have h1 : gather (alarmLane rom 1 v1) _ = _ := alarmLanes_ok rom 0 v1
  have h2 : gather (alarmLane rom 2 v2) _ = _ := alarmLanes_ok rom 1 v2
  have h3 : gather (alarmLane rom 3 v3) _ = _ := alarmLanes_ok rom 2 v3
  have h4 : gather (alarmLane rom 4 v4) _ = _ := alarmLanes_ok rom 3 v4
  have hr : List.finRange 4 = [0, 1, 2, 3] := by decide
  simp only [decodeAlarms, gather, h1, h2, h3, h4, bind, Except.bind, pure, Except.pure, alarms, hr]
  simp [Function.comp_def]

/-- The response of ALARM on eight bytes, its four values written out (R57, R109). -/
theorem alarmResponse_eight (rom : AlarmRom) (a b c d e f g h : Byte) :
    alarmResponse rom [a, b, c, d, e, f, g, h] =
      (alarms rom ![be16 a b, be16 c d, be16 e f, be16 g h]).map AlarmRecord.token ++
        [.endTok .ok (BitVec.ofNat 16 (alarms rom ![be16 a b, be16 c d, be16 e f, be16 g h]).length) 0#16 0#8] := by
  have hv : (fun r : Fin Config.nAlarmRegs => (regs [a, b, c, d, e, f, g, h]).getD r.val 0#16) =
      ![be16 a b, be16 c d, be16 e f, be16 g h] := by
    funext r; fin_cases r <;> rfl
  simp only [alarmResponse, hv]
  rfl

/-- The response of ALARM on any other number of bytes (R57). -/
theorem alarmResponse_other (rom : AlarmRom) {data : List Byte} (h : data.length ≠ 8) :
    alarmResponse rom data = [.endTok .badRequest 0#16 0#16 0#8] := if_neg h

/-- The response of RT_ALARM below the floor (R110). -/
theorem rtAlarmResponse_short (rom : AlarmRom) {payload : List Byte} (h : payload.length / 2 < 62) :
    rtAlarmResponse rom payload = [.endTok .insufficientData 0#16 (BitVec.ofNat 16 (payload.length / 2)) 0#8] := by
  simp only [rtAlarmResponse, regs_length]
  exact if_pos h

/-- Records are as many as the set bits, so at most 64 (R102). -/
theorem alarms_length_le (rom : AlarmRom) (v : Fin 4 → Reg16) : (alarms rom v).length ≤ 64 := by
  have h : ∀ r : Fin 4, (((List.finRange Config.alarmBits).filter fun b => (v r).getLsbD b.val).map (alarmRecord rom r)).length ≤ 16 := by
    intro r
    rw [List.length_map]
    exact le_trans (List.length_filter_le _ _) (by simp)
  have hr : List.finRange 4 = [0, 1, 2, 3] := by decide
  have h0 := h 0; have h1 := h 1; have h2 := h 2; have h3 := h 3
  simp only [alarms, hr, List.flatMap_cons, List.flatMap_nil, List.length_append, List.length_nil]
  omega

end Sys2Proof.Machine
end

