-- ==== Sys2Proof/Laws/Extract.lean ====
section
/-! SUPPORT. The frame extractor: classifying a surviving candidate succeeds and gives its one token, and the scan is a
fold of the detector over the buffer (spec/40_frame_extractor.md R72, R85). -/

namespace Sys2Proof.Machine

/-! ### One candidate -/

/-- A candidate without a payload gives `EmptyPayload` (R80). -/
theorem candToken_short (i : Nat) {c : List Byte} (h : c.length < 6) :
    candToken i c = .candErr (BitVec.ofNat 16 i) .emptyPayload (c.getD 2 0#8) (BitVec.ofNat 16 c.length) := if_pos h

/-- A candidate with a payload and a known command byte gives FRAME (R81, R82, R88). -/
theorem candToken_known (i : Nat) {c : List Byte} {k : FrameKind} (h : 6 ≤ c.length)
    (hk : kindOf (c.getD 2 0#8) = some k) :
    candToken i c = .frame (BitVec.ofNat 16 i) (c.getD 2 0#8) k (BitVec.ofNat 16 (c.length - 5))
      (slice c 3 (c.length - 2)) (c.getD (c.length - 2) 0#8) (c.getD (c.length - 2 + 1) 0#8) := by
  have hn : ¬c.length < Config.minFrameLen := Nat.not_lt.mpr h
  unfold kindOf at hk
  simp only [candToken, hn, if_false]
  split at hk
  · next hc => rw [if_pos hc]; cases hk; rfl
  · next hc =>
    rw [if_neg hc]
    split at hk
    · next hr => rw [if_pos hr]; cases hk; rfl
    · cases hk

/-- A candidate with a payload and any other command byte gives `UnknownCommand` (R81). -/
theorem candToken_unknown (i : Nat) {c : List Byte} (h : 6 ≤ c.length) (hk : kindOf (c.getD 2 0#8) = none) :
    candToken i c = .candErr (BitVec.ofNat 16 i) .unknownCommand (c.getD 2 0#8) (BitVec.ofNat 16 c.length) := by
  have hn : ¬c.length < Config.minFrameLen := Nat.not_lt.mpr h
  unfold kindOf at hk
  simp only [candToken, hn, if_false]
  split at hk
  · cases hk
  · next hc =>
    rw [if_neg hc]
    split at hk
    · cases hk
    · next hr => rw [if_neg hr]

/-- `classify` of a surviving candidate emits the token R72 gives it; none of its reads is out of range. -/
theorem classify_ok (i : Nat) (c : List Byte) (s : State) (h : 3 ≤ c.length) :
    classify (BitVec.ofNat 16 i) c s = .ok (s.emit (candToken i c)) := by
  have cmd : memRead c Config.markerLen = .ok (c.getD 2 0#8) := memRead_getD h
  by_cases hn : c.length < 6
  · simp [classify, cmd, hn, candToken_short i hn, bind, Except.bind, pure, Except.pure]
  · have h6 := Nat.not_lt.mp hn
    cases hk : kindOf (c.getD 2 0#8) with
    | none =>
      rw [candToken_unknown i h6 hk]
      simp only [classify, cmd, hk, bind, Except.bind, pure, Except.pure]
      exact if_neg hn
    | some k =>
      have sfx0 : memRead c (c.length - Config.suffixLen) = .ok (c.getD (c.length - 2) 0#8) :=
        memRead_getD (show c.length - 2 < c.length by omega)
      have sfx1 : memRead c (c.length - Config.suffixLen + 1) = .ok (c.getD (c.length - 2 + 1) 0#8) :=
        memRead_getD (show c.length - 2 + 1 < c.length by omega)
      rw [candToken_known i h6 hk]
      simp only [classify, cmd, hk, sfx0, sfx1, bind, Except.bind, pure, Except.pure]
      exact if_neg hn

/-- What `close` leaves: a survivor's token and the next index, or nothing (R76, R83). -/
def closed (c : List Byte) (s : State) : State :=
  if 3 ≤ c.length then { s.emit (candToken s.ncand.toNat c) with ncand := s.ncand + 1#16 } else s

theorem closeCand_ok (c : List Byte) (s : State) : closeCand c s = .ok (closed c s) := by
  unfold closeCand closed
  by_cases hc : 3 ≤ c.length
  · have h := classify_ok s.ncand.toNat c s hc
    rw [BitVec.ofNat_toNat, BitVec.setWidth_eq] at h
    simp [h, hc, bind, Except.bind, pure, Except.pure]
  · simp [hc]

@[simp] theorem closed_rom (c : List Byte) (s : State) : (closed c s).rom = s.rom := by
  unfold closed; split <;> rfl

@[simp] theorem closed_pos (c : List Byte) (s : State) : (closed c s).pos = s.pos := by
  unfold closed; split <;> rfl

@[simp] theorem closed_detPhase (c : List Byte) (s : State) : (closed c s).detPhase = s.detPhase := by
  unfold closed; split <;> rfl

@[simp] theorem closed_detPend (c : List Byte) (s : State) : (closed c s).detPend = s.detPend := by
  unfold closed; split <;> rfl

/-! ### One byte -/

/-- What `open_marker` leaves (R85). -/
def opened (s : State) : State :=
  { (if s.detPhase = .inCand then closed s.cand s else s) with
    detPhase := .inCand, cand := [Config.marker0, Config.marker1] }

theorem openMarker_ok (s : State) : openMarker s = .ok (opened s) := by
  unfold openMarker opened
  cases s.detPhase <;> simp [closeCand_ok, bind, Except.bind, pure, Except.pure]

/-- What one byte leaves (R85). -/
def detected (b : Byte) (s : State) : State :=
  if s.detPend then
    if b = Config.marker1 then opened { s with detPend := false }
    else if b = Config.marker0 then { pushByte Config.marker0 s with detPend := true }
    else pushByte b { pushByte Config.marker0 s with detPend := false }
  else if b = Config.marker0 then { s with detPend := true }
  else pushByte b s

/-- The detector never meets an out-of-range read. -/
theorem detect_ok (b : Byte) (s : State) : detect b s = .ok (detected b s) := by
  unfold detect detected
  split
  · split
    · exact openMarker_ok _
    · split <;> rfl
  · split <;> rfl

@[simp] theorem pushByte_pos (b : Byte) (s : State) : (pushByte b s).pos = s.pos := by
  unfold pushByte; split <;> rfl

@[simp] theorem opened_pos (s : State) : (opened s).pos = s.pos := by
  unfold opened; split <;> simp

@[simp] theorem detected_pos (b : Byte) (s : State) : (detected b s).pos = s.pos := by
  unfold detected
  split
  · split
    · simp
    · split <;> simp
  · split <;> simp

/-! ### The whole scan -/

/-- The scan from position `s.pos` as a fold over the bytes still to come. -/
def scanned (bytes : List Byte) (s : State) : State :=
  bytes.foldl (fun t b => detected b { t with pos := t.pos + 1 }) s

@[simp] theorem scanned_nil (s : State) : scanned [] s = s := rfl

@[simp] theorem scanned_cons (b : Byte) (bs : List Byte) (s : State) :
    scanned (b :: bs) s = scanned bs (detected b { s with pos := s.pos + 1 }) := rfl

theorem scanned_append (as bs : List Byte) (s : State) : scanned (as ++ bs) s = scanned bs (scanned as s) :=
  List.foldl_append

/-- SCAN reads `buf[pos]`, `buf[pos+1]`, … and meets no read out of range while bytes remain. -/
theorem scanBytes_ok (buf : Memory) (k : Nat) (s : State) (h : s.pos + k = buf.length) :
    scanBytes buf k s = .ok (scanned (buf.drop s.pos) s) := by
  induction k generalizing s with
  | zero => simp [scanBytes, List.drop_eq_nil_of_le (show buf.length ≤ s.pos by omega)]
  | succ k ih =>
    have hp : s.pos < buf.length := by omega
    have hd : List.drop s.pos buf = buf[s.pos] :: List.drop (s.pos + 1) buf := List.drop_eq_getElem_cons hp
    rw [hd, scanned_cons]
    simp only [scanBytes, memRead_ok hp, bind, Except.bind, detect_ok]
    rw [ih _ (by simp; omega)]
    simp

/-- The whole of SCAN from position 0. -/
theorem scanBytes_all (buf : Memory) (s : State) (h : s.pos = 0) :
    scanBytes buf buf.length s = .ok (scanned buf s) := by
  rw [scanBytes_ok buf buf.length s (by omega), h, List.drop_zero]

/-- What `finish` leaves before the `END` (R85). -/
def flushed (s : State) : State :=
  let s1 := if s.detPend then { pushByte Config.marker0 s with detPend := false } else s
  if s1.detPhase = .inCand then closed s1.cand s1 else s1

theorem finishScan_ok (s : State) :
    finishScan s = .ok (if (flushed s).ncand = 0#16 then (flushed s).raise .noFramesFound 0#16
      else (flushed s).endWith .ok (flushed s).ncand 0#16 0#8) := by
  unfold finishScan flushed
  simp only
  generalize (if s.detPend then { pushByte Config.marker0 s with detPend := false } else s) = s1
  cases hp : s1.detPhase
  · simp only [bind, Except.bind, reduceCtorEq, if_false]
    split <;> rfl
  · simp only [closeCand_ok, bind, Except.bind, if_true]
    split <;> rfl

end Sys2Proof.Machine
end

