-- ==== Sys2Proof/Laws/Frames.lean ====
section
/-! SUPPORT. What the shared operations leave alone: one relation, `Keeps`, that every operation of the extractor and
every ending satisfies, so that a frame is proved once and cited. -/

namespace Sys2Proof.Machine

/-- Going from `s` to `t`, the request, its buffer, `out`, the ROM, the alarm count and the host's side are unchanged,
and the response has only grown behind what it held. -/
structure Keeps (s t : State) : Prop where
  op : t.op = s.op
  hdrBad : t.hdrBad = s.hdrBad
  dbuf : t.dbuf = s.dbuf
  nrecv : t.nrecv = s.nrecv
  ovf : t.ovf = s.ovf
  nrec : t.nrec = s.nrec
  out : t.out = s.out
  rom : t.rom = s.rom
  host : t.host = s.host
  delivered : t.delivered = s.delivered
  resp : s.resp <+: t.resp

theorem Keeps.rfl' (s : State) : Keeps s s :=
  ⟨rfl, rfl, rfl, rfl, rfl, rfl, rfl, rfl, rfl, rfl, List.prefix_rfl⟩

theorem Keeps.trans {a b c : State} (h : Keeps a b) (k : Keeps b c) : Keeps a c :=
  ⟨k.1.trans h.1, k.2.trans h.2, k.3.trans h.3, k.4.trans h.4, k.5.trans h.5, k.6.trans h.6, k.7.trans h.7,
    k.8.trans h.8, k.9.trans h.9, k.10.trans h.10, h.11.trans k.11⟩

/-- The elements that only the scan uses may take any value. -/
theorem Keeps.withScan {s t : State} (h : Keeps s t) (ph : DetPhase) (pe : Bool) (c : List Byte) (n : Nat)
    (k : Reg16) : Keeps s { t with detPhase := ph, detPend := pe, cand := c, pos := n, ncand := k } :=
  ⟨h.1, h.2, h.3, h.4, h.5, h.6, h.7, h.8, h.9, h.10, h.11⟩

theorem keeps_endWith (s : State) (st : Status) (c a : Reg16) (f : Byte) : Keeps s (s.endWith st c a f) :=
  ⟨rfl, rfl, rfl, rfl, rfl, rfl, rfl, rfl, rfl, rfl, ⟨_, rfl⟩⟩

theorem keeps_closed (c : List Byte) (s : State) : Keeps s (closed c s) := by
  unfold closed
  split
  · exact ⟨rfl, rfl, rfl, rfl, rfl, rfl, rfl, rfl, rfl, rfl, ⟨_, rfl⟩⟩
  · exact Keeps.rfl' s

theorem keeps_pushByte (b : Byte) (s : State) : Keeps s (pushByte b s) := by
  unfold pushByte
  split <;> exact ⟨rfl, rfl, rfl, rfl, rfl, rfl, rfl, rfl, rfl, rfl, List.prefix_rfl⟩

theorem keeps_opened (s : State) : Keeps s (opened s) := by
  unfold opened
  split
  · exact (keeps_closed s.cand s).withScan _ _ _ _ _
  · exact (Keeps.rfl' s).withScan _ _ _ _ _

theorem keeps_detected (b : Byte) (s : State) : Keeps s (detected b s) := by
  have h := (keeps_pushByte Config.marker0 s).withScan
  unfold detected
  split
  · split
    · exact ((Keeps.rfl' s).withScan _ _ _ _ _).trans (keeps_opened _)
    · split
      · exact h _ _ _ _ _
      · exact (h _ _ _ _ _).trans (keeps_pushByte _ _)
  · split
    · exact (Keeps.rfl' s).withScan _ _ _ _ _
    · exact keeps_pushByte _ _

theorem keeps_scanBytes (buf : Memory) (k : Nat) (s t : State) (h : scanBytes buf k s = .ok t) : Keeps s t := by
  induction k generalizing s with
  | zero => simp only [scanBytes, Except.ok.injEq] at h; exact h ▸ Keeps.rfl' s
  | succ k ih =>
    simp only [scanBytes, detect_ok, bind, Except.bind] at h
    split at h
    · cases h
    · exact (((Keeps.rfl' s).withScan _ _ _ _ _).trans (keeps_detected _ _)).trans (ih _ h)

theorem keeps_flushed (s : State) : Keeps s (flushed s) := by
  have k : Keeps s (if s.detPend then { pushByte Config.marker0 s with detPend := false } else s) := by
    split
    · exact (keeps_pushByte Config.marker0 s).withScan _ _ _ _ _
    · exact Keeps.rfl' s
  unfold flushed
  simp only
  generalize (if s.detPend then ({ pushByte Config.marker0 s with detPend := false } : State) else s) = u at k ⊢
  split
  · exact k.trans (keeps_closed _ _)
  · exact k

/-- EXTRACT from any state: where it answers a next state, the frame holds. -/
theorem keeps_execExtract (buf : List Byte) (s t : State) (h : execExtract buf s = .next t) : Keeps s t := by
  simp only [execExtract, outcomeOf_next, bind, Except.bind] at h
  split at h
  · cases h
  · rename_i u hu
    rw [finishScan_ok, Except.ok.injEq] at h
    refine (keeps_scanBytes _ _ _ _ hu).trans ((keeps_flushed u).trans ?_)
    subst h
    split <;> exact keeps_endWith _ _ _ _ _

/-- A wire-frame row closes its own bytes, which are at least three. -/
theorem exec_frame (i : Instr) (s : State) (h : i.isRequest = false) :
    exec i s = .next (closed (encode i) s) ∧ 3 ≤ (encode i).length := by
  cases i <;> simp [Instr.isRequest, Instr.space] at h <;>
    simp [exec, execFrameCfg, execFrameRt, execFrameUnknown, closeCand_ok, encode, wireFrame]

end Sys2Proof.Machine
end

