-- ==== Sys2Proof/Laws/PerInstr.lean ====
section
/-! SUPPORT. Statements about every instruction as syntax, one lemma per constructor. -/

namespace Sys2Proof.Laws.EncodeFits

/-- A well-formed instruction's encoding is never empty, and fits one request: a header byte and at most `BUF_MAX`
bytes. -/
def Statement (i : Instr) : Prop :=
  i.wellFormed = true → 1 ≤ (encode i).length ∧ (encode i).length ≤ Config.bufMax + 1

theorem extract (buf : List Byte) : Statement (.extract buf) := by
  intro h
  simp only [Instr.wellFormed, fitsBuffer, decide_eq_true_eq] at h
  simp only [encode, List.length_cons]
  omega

theorem unpack (payload : List Byte) : Statement (.unpack payload) := by
  intro h
  simp only [Instr.wellFormed, fitsBuffer, decide_eq_true_eq] at h
  simp only [encode, List.length_cons]
  omega

theorem alarm (data : List Byte) : Statement (.alarm data) := by
  intro h
  have hb := Config.bufMax_ge
  simp only [Instr.wellFormed, decide_eq_true_eq, Config.alarmDataLen, Config.regBytes, Config.nAlarmRegs] at h
  simp only [encode, List.length_cons]
  omega

theorem rtAlarm (payload : List Byte) : Statement (.rtAlarm payload) := by
  intro h
  simp only [Instr.wellFormed, fitsBuffer, decide_eq_true_eq] at h
  simp only [encode, List.length_cons]
  omega

/-- A frame's body, and so its encoding, fits the request buffer. -/
theorem wireFrame_fits (cmd : Byte) (tail : List Byte) (h : frameBody cmd tail = true) :
    1 ≤ (wireFrame cmd tail).length ∧ (wireFrame cmd tail).length ≤ Config.bufMax + 1 := by
  simp only [frameBody, Bool.and_eq_true, decide_eq_true_eq, Config.hdrLen, Config.markerLen] at h
  simp only [wireFrame, List.length_cons]
  omega

theorem frameCfg (tail : List Byte) : Statement (.frameCfg tail) := wireFrame_fits _ _

theorem frameRt (tail : List Byte) : Statement (.frameRt tail) := wireFrame_fits _ _

theorem frameUnknown (cmd : Byte) (tail : List Byte) : Statement (.frameUnknown cmd tail) := by
  intro h
  simp only [Instr.wellFormed, Bool.and_eq_true] at h
  exact wireFrame_fits cmd tail h.2

end Sys2Proof.Laws.EncodeFits
end

