-- ==== Sys2Proof/Laws/Split.lean ====
section
/-! SUPPORT. Splitting a buffer at its markers by recursion on its bytes: the bridge between the positions and windows
of spec/40_frame_extractor.md R73 and R75 and the byte-serial detector of R85. -/

namespace Sys2Proof.Machine

/-- The bytes before the first marker, and the candidates. -/
def splitAtMarkers : List Byte → List Byte × List (List Byte)
  | [] => ([], [])
  | a :: rest =>
    let r := splitAtMarkers rest
    if a = Config.marker0 ∧ rest.head? = some Config.marker1 then ([], (a :: r.1) :: r.2) else (a :: r.1, r.2)

theorem split_cons_marker (rest : List Byte) :
    splitAtMarkers (0xD2#8 :: 0x03#8 :: rest) =
      ([], (0xD2#8 :: 0x03#8 :: (splitAtMarkers rest).1) :: (splitAtMarkers rest).2) := by
  simp [splitAtMarkers]

theorem split_cons_other {a : Byte} {rest : List Byte} (h : ¬(a = 0xD2#8 ∧ rest.head? = some 0x03#8)) :
    splitAtMarkers (a :: rest) = (a :: (splitAtMarkers rest).1, (splitAtMarkers rest).2) := by
  simp only [splitAtMarkers, Config.marker0, Config.marker1]
  rw [if_neg h]

/-- Splitting loses no byte. -/
theorem split_flatten (buf : List Byte) : (splitAtMarkers buf).1 ++ (splitAtMarkers buf).2.flatten = buf := by
  induction buf with
  | nil => rfl
  | cons a rest ih =>
    simp only [splitAtMarkers]
    split <;> simp [ih]

theorem split_length (buf : List Byte) :
    ((splitAtMarkers buf).2.map List.length).sum ≤ buf.length := by
  have h := congrArg List.length (split_flatten buf)
  simp only [List.length_append, List.length_flatten] at h
  omega

/-! ### The positions of R73 and the windows of R75 -/

theorem markerAt_succ (a : Byte) (rest : List Byte) (p : Nat) : markerAt (a :: rest) (p + 1) = markerAt rest p := by
  simp [markerAt]

theorem markerAt_zero (a : Byte) (rest : List Byte) :
    markerAt (a :: rest) 0 = true ↔ a = 0xD2#8 ∧ rest.head? = some 0x03#8 := by
  cases rest <;> simp [markerAt]

theorem markers_cons (a : Byte) (rest : List Byte) :
    markers (a :: rest) = (if markerAt (a :: rest) 0 then [0] else []) ++ (markers rest).map (· + 1) := by
  have h : List.range (a :: rest).length = 0 :: (List.range rest.length).map (· + 1) := by
    rw [List.length_cons, List.range_succ_eq_map]
  unfold markers
  rw [h, List.filter_cons, List.filter_map]
  have e : (markerAt (a :: rest) ∘ fun x => x + 1) = markerAt rest := funext fun p => markerAt_succ a rest p
  rw [e]
  split <;> rfl

theorem slice_succ (a : Byte) (rest : List Byte) (p q : Nat) : slice (a :: rest) (p + 1) (q + 1) = slice rest p q := by
  simp [slice]

theorem windows_shift (a : Byte) (rest : List Byte) (ms : List Nat) :
    windows (a :: rest) (ms.map (· + 1)) = windows rest ms := by
  induction ms with
  | nil => rfl
  | cons p ms ih =>
    cases ms with
    | nil => simp only [List.map_cons, List.map_nil, windows, List.length_cons, slice_succ]
    | cons q ms =>
      simp only [List.map_cons] at ih ⊢
      simp only [windows, slice_succ, ih]

/-- Where the first marker is, or the end. -/
theorem split_prefix (buf : List Byte) :
    (splitAtMarkers buf).1 = slice buf 0 ((markers buf).headD buf.length) := by
  induction buf with
  | nil => rfl
  | cons a rest ih =>
    rw [markers_cons]
    by_cases h : a = 0xD2#8 ∧ rest.head? = some 0x03#8
    · rw [if_pos ((markerAt_zero a rest).mpr h)]
      simp [splitAtMarkers, h, slice]
    · rw [if_neg (mt (markerAt_zero a rest).mp h), split_cons_other h, ih]
      cases hm : markers rest <;> simp [slice]

theorem windows_cons (buf : List Byte) (p : Nat) (ms : List Nat) :
    windows buf (p :: ms) = slice buf p (ms.headD buf.length) :: windows buf ms := by
  cases ms <;> rfl

/-- The candidates of R75 are those of the recursive split. -/
theorem candidates_eq_split (buf : List Byte) : candidates buf = (splitAtMarkers buf).2 := by
  induction buf with
  | nil => rfl
  | cons a rest ih =>
    unfold candidates at ih ⊢
    rw [markers_cons]
    by_cases h : a = 0xD2#8 ∧ rest.head? = some 0x03#8
    · rw [if_pos ((markerAt_zero a rest).mpr h), List.singleton_append, windows_cons, windows_shift, ih]
      simp only [splitAtMarkers, Config.marker0, Config.marker1, h, and_self, if_true]
      rw [split_prefix]
      cases hm : markers rest <;> simp [slice]
    · rw [if_neg (mt (markerAt_zero a rest).mp h), List.nil_append, windows_shift, ih, split_cons_other h]

/-! ### The detector of R85 -/

/-- A state without the elements that only the detector uses. -/
def State.core (s : State) : State :=
  { s with pos := 0, detPhase := .prefixBytes, detPend := false, cand := [] }

theorem core_closed (c : List Byte) (s : State) : (closed c s).core = closed c s.core := by
  unfold closed
  split <;> rfl

/-- Close candidates one after another. -/
def closeAll (cs : List (List Byte)) (s : State) : State := cs.foldl (fun t c => closed c t) s

theorem closeAll_cons (c : List Byte) (cs : List (List Byte)) (s : State) :
    closeAll (c :: cs) s = closeAll cs (closed c s) := rfl

/-- The candidates the detector still closes when the bytes `xs` are to come: the open one goes on to the first marker
of `xs`. -/
def pendingCands (s : State) (xs : List Byte) : List (List Byte) :=
  match s.detPhase with
  | .prefixBytes => (splitAtMarkers xs).2
  | .inCand => (s.cand ++ (splitAtMarkers xs).1) :: (splitAtMarkers xs).2

/-- The bytes the detector has still to place: a held `0xD2` comes before the ones to come. -/
def heldBytes (s : State) (xs : List Byte) : List Byte := if s.detPend then 0xD2#8 :: xs else xs

theorem core_eq_of_det {s : State} {ph : DetPhase} {pe : Bool} {c : List Byte} {n : Nat} :
    ({ s with detPhase := ph, detPend := pe, cand := c, pos := n } : State).core = s.core := rfl

/-- The scan and its `finish` close exactly the candidates of the split, in order, whatever the detector's state. -/
theorem flushed_scanned (xs : List Byte) (s : State) :
    (flushed (scanned xs s)).core = closeAll (pendingCands s (heldBytes s xs)) s.core := by
  induction xs generalizing s with
  | nil =>
    simp only [scanned_nil]
    cases hp : s.detPend <;> cases hph : s.detPhase <;>
      simp [flushed, heldBytes, pendingCands, hp, hph, pushByte, splitAtMarkers, closeAll, core_closed] <;> rfl
  | cons b bs ih =>
    rw [scanned_cons, ih]
    cases hp : s.detPend
    · by_cases hb : b = 0xD2#8
      · subst hb
        simp [detected, heldBytes, pendingCands, hp]
        rfl
      · have hs : splitAtMarkers (b :: bs) = (b :: (splitAtMarkers bs).1, (splitAtMarkers bs).2) :=
          split_cons_other fun h => hb h.1
        cases hph : s.detPhase <;>
          simp [detected, hp, hb, pushByte, hph, heldBytes, pendingCands, hs] <;> rfl
    · by_cases hb : b = 0x03#8
      · subst hb
        cases hph : s.detPhase
        · simp [detected, hp, opened, hph, heldBytes, pendingCands, split_cons_marker]; rfl
        · simp [detected, hp, opened, hph, heldBytes, pendingCands, split_cons_marker, closeAll_cons, -closed_rom]
          exact congrArg (fun u => closeAll _ (closed _ u))
            (core_closed s.cand { s with pos := s.pos + 1, detPhase := .inCand, detPend := false })
      · have hs : splitAtMarkers (0xD2#8 :: b :: bs) =
            (0xD2#8 :: (splitAtMarkers (b :: bs)).1, (splitAtMarkers (b :: bs)).2) :=
          split_cons_other fun h => hb (by simpa using h.2)
        by_cases hb2 : b = 0xD2#8
        · subst hb2
          cases hph : s.detPhase <;>
            simp [detected, hp, pushByte, hph, heldBytes, pendingCands, hs] <;> rfl
        · have hs2 : splitAtMarkers (b :: bs) = (b :: (splitAtMarkers bs).1, (splitAtMarkers bs).2) :=
            split_cons_other fun h => hb2 h.1
          cases hph : s.detPhase <;>
            simp [detected, hp, hb, hb2, pushByte, hph, heldBytes, pendingCands, hs, hs2] <;> rfl

/-! ### What closing the candidates leaves -/

/-- A candidate's token depends on its number only through the 16 bits of `idx`. -/
theorem candToken_congr {i j : Nat} (h : BitVec.ofNat 16 i = BitVec.ofNat 16 j) (c : List Byte) :
    candToken i c = candToken j c := by
  unfold candToken
  rw [h]

/-- The survivors of a candidate list (R76). -/
abbrev survivors (cs : List (List Byte)) : List (List Byte) := cs.filter fun c => Config.minCandLen ≤ c.length

/-- Closing candidates emits the survivors' tokens in order, numbers them on from `n`, and does nothing else. -/
theorem closeAll_eq (cs : List (List Byte)) (s : State) (n : Nat) (h : s.ncand = BitVec.ofNat 16 n) :
    closeAll cs s =
      { s with
        ncand := BitVec.ofNat 16 (n + (survivors cs).length)
        resp := s.resp ++ candTokens n (survivors cs) } := by
  induction cs generalizing s n with
  | nil => simp [closeAll, candTokens, ← h]
  | cons c cs ih =>
    rw [closeAll_cons]
    by_cases hc : 3 ≤ c.length
    · have hs : survivors (c :: cs) = c :: survivors cs := by simp [survivors, hc]
      have hn : (closed c s).ncand = BitVec.ofNat 16 (n + 1) := by simp [closed, hc, h, BitVec.ofNat_add]
      have ht : candToken s.ncand.toNat c = candToken n c := candToken_congr (by rw [BitVec.ofNat_toNat, BitVec.setWidth_eq, h]) c
      rw [ih _ (n + 1) hn, hs]
      simp [closed, hc, candTokens, ht, Nat.add_assoc, Nat.add_comm 1]
    · have hs : survivors (c :: cs) = survivors cs := by simp [survivors, hc]
      have e : closed c s = s := by simp [closed, hc]
      rw [e, ih s n h, hs]

/-- Each survivor takes at least 3 bytes of the buffer, so their number fits the 16 bits of `ncand`. -/
theorem survivors_length (buf : List Byte) : 3 * (survivors (candidates buf)).length ≤ buf.length := by
  rw [candidates_eq_split]
  refine le_trans ?_ (split_length buf)
  induction (splitAtMarkers buf).2 with
  | nil => simp
  | cons c cs ih =>
    by_cases hc : 3 ≤ c.length
    · have hs : survivors (c :: cs) = c :: survivors cs := by simp [survivors, hc]
      rw [hs, List.length_cons, List.map_cons, List.sum_cons]; omega
    · have hs : survivors (c :: cs) = survivors cs := by simp [survivors, hc]
      rw [hs, List.map_cons, List.sum_cons]; omega

/-- The whole scan from a clean detector: the state before `END`, but for the elements only the detector uses. -/
theorem flushed_fresh (buf : List Byte) (s : State) (hp : s.detPhase = .prefixBytes) (hd : s.detPend = false)
    (hn : s.ncand = 0#16) :
    (flushed (scanned buf s)).core =
      { s.core with
        ncand := BitVec.ofNat 16 (surviving buf).length
        resp := s.resp ++ candTokens 0 (surviving buf) } := by
  rw [flushed_scanned]
  have e : pendingCands s (heldBytes s buf) = candidates buf := by
    simp [pendingCands, heldBytes, hp, hd, candidates_eq_split]
  have h0 : s.core.ncand = BitVec.ofNat 16 0 := hn
  rw [e, closeAll_eq _ _ 0 h0, Nat.zero_add]
  rfl

@[simp] theorem flushed_pos (s : State) : (flushed s).pos = s.pos := by
  unfold flushed
  cases s.detPend <;> simp only [Bool.false_eq_true, if_false, if_true] <;> split <;> simp

@[simp] theorem scanned_pos (bytes : List Byte) (s : State) : (scanned bytes s).pos = s.pos + bytes.length := by
  induction bytes generalizing s with
  | nil => rfl
  | cons b bs ih => rw [scanned_cons, ih]; simp; omega

end Sys2Proof.Machine
end

