-- ==== Sys2Proof/Laws/Response.lean ====
section
/-! SUPPORT. What the pure responses are made of: which records AD gives, and that every token before the last of a
response is no `END` (spec/30_encoding.md R58, spec/42_alarm_decoder.md R98). -/

namespace Sys2Proof.Machine

/-! ### Candidates -/

theorem candTokens_length (i : Nat) (cs : List (List Byte)) : (candTokens i cs).length = cs.length := by
  induction cs generalizing i with
  | nil => rfl
  | cons c cs ih => simp [candTokens, ih]

theorem candTokens_getElem? (i : Nat) (cs : List (List Byte)) (k : Nat) :
    (candTokens i cs)[k]? = cs[k]?.map (candToken (i + k)) := by
  induction cs generalizing i k with
  | nil => rfl
  | cons c cs ih =>
    cases k with
    | zero => rfl
    | succ k => simp [candTokens, ih, Nat.add_assoc, Nat.add_comm 1]

/-- A surviving candidate has at least three bytes and at most the buffer's. -/
theorem surviving_length (buf : List Byte) : ∀ c ∈ surviving buf, 3 ≤ c.length ∧ c.length ≤ buf.length := by
  intro c hc
  simp only [surviving, List.mem_filter, candidates_eq_split, decide_eq_true_eq] at hc
  refine ⟨hc.2, ?_⟩
  have h1 := split_length buf
  have h2 : c.length ≤ ((splitAtMarkers buf).2.map List.length).sum :=
    List.single_le_sum (by simp) _ (List.mem_map_of_mem hc.1)
  omega

theorem candToken_isEnd (i : Nat) (c : List Byte) : (candToken i c).isEnd = false := by
  unfold candToken
  simp only
  split
  · rfl
  · split
    · rfl
    · split <;> rfl

theorem candTokens_isEnd (i : Nat) (cs : List (List Byte)) : ∀ t ∈ candTokens i cs, t.isEnd = false := by
  induction cs generalizing i with
  | nil => simp [candTokens]
  | cons c cs ih =>
    simp only [candTokens, List.mem_cons]
    rintro t (rfl | h)
    exacts [candToken_isEnd _ _, ih _ t h]

/-! ### Alarm records -/

/-- AD's records are those of the set bits. -/
theorem mem_alarms (rom : AlarmRom) (v : Fin 4 → Reg16) (a : AlarmRecord) :
    a ∈ alarms rom v ↔ ∃ (r : Fin 4) (b : Fin 16), (v r).getLsbD b.val = true ∧ a = alarmRecord rom r b := by
  simp only [alarms, List.mem_flatMap, List.mem_finRange, true_and, List.mem_map, List.mem_filter]
  constructor
  · rintro ⟨r, b, h, rfl⟩; exact ⟨r, b, h, rfl⟩
  · rintro ⟨r, b, h, rfl⟩; exact ⟨r, b, h, rfl⟩

theorem records_isEnd (rom : AlarmRom) (v : Fin 4 → Reg16) :
    ∀ t ∈ (alarms rom v).map AlarmRecord.token, t.isEnd = false := by
  intro t ht
  simp only [List.mem_map] at ht
  obtain ⟨a, _, rfl⟩ := ht
  rfl

end Sys2Proof.Machine
end

