-- ==== Sys2Proof/Laws/Step.lean ====
section
/-! SUPPORT. Everything one step can do, said once: the cases of the channel, of the block and of the whole step, and
runs of several steps (spec/10_state.md R24, R25). -/

namespace Sys2Proof.Machine

/-! ### The request channel -/

/-- When the block takes a byte. -/
theorem accepts_cases {s : State} (h : s.accepts = true) : (s.mode = .idle ∧ s.out = none) ∨ s.mode = .load := by
  unfold State.accepts at h
  split at h <;> simp_all

theorem acceptXfer_idle {s : State} (h : s.mode = .idle) (x : Xfer) : s.acceptXfer x = s.acceptHeader x := by
  simp [State.acceptXfer, h]

theorem acceptXfer_load {s : State} (h : s.mode = .load) (x : Xfer) : s.acceptXfer x = s.acceptData x := by
  simp [State.acceptXfer, h]

/-- A data byte leaves the ROM, the tokens and the host's side alone. -/
theorem acceptData_keeps (s : State) (x : Xfer) :
    (s.acceptData x).mode = phaseAfter x.last ∧ (s.acceptData x).rom = s.rom ∧ (s.acceptData x).out = s.out ∧
      (s.acceptData x).resp = s.resp ∧ (s.acceptData x).host = s.host ∧ (s.acceptData x).delivered = s.delivered := by
  unfold State.acceptData
  split
  · exact ⟨rfl, rfl, rfl, rfl, rfl, rfl⟩
  · split <;> exact ⟨rfl, rfl, rfl, rfl, rfl, rfl⟩

/-! ### One step of the block -/

/-- Everything a step of the block can do. -/
theorem blockStep_cases {s t : State} (h : blockStep s = .next t) :
    ((s.mode = .idle ∨ s.mode = .load) ∧ t = s) ∨
    (s.mode = .scan ∧ ∃ e, fetch s = .error e ∧ t = s.rejectRequest e) ∨
    (s.mode = .scan ∧ ∃ i, fetch s = .ok i ∧ exec i s = .next t) ∨
    (s.mode = .emitEnd ∧ t = s.drain) := by
  unfold blockStep at h
  split at h
  · rename_i hm; exact .inl ⟨.inl hm, by simpa using h.symm⟩
  · rename_i hm; exact .inl ⟨.inr hm, by simpa using h.symm⟩
  · rename_i hm
    split at h
    · rename_i i hf; exact .inr (.inr (.inl ⟨hm, i, hf, h⟩))
    · rename_i e hf; exact .inr (.inl ⟨hm, e, hf, by simpa using h.symm⟩)
  · rename_i hm; exact .inr (.inr (.inr ⟨hm, by simpa using h.symm⟩))

/-- What `fetch` gives is the operation of `op` on the gathered data. -/
theorem fetch_ok {s : State} {i : Instr} (h : fetch s = .ok i) :
    s.hdrBad = false ∧ s.ovf = false ∧ i = instrOf s.op s.dbuf := by
  unfold fetch at h
  cases hb : s.hdrBad <;> cases ho : s.ovf <;> simp [hb, ho] at h
  exact ⟨rfl, rfl, h.symm⟩

/-- `drain` moves a token from the response to `out`; nothing produced is lost and nothing else but the phase changes. -/
theorem drain_keeps (s : State) :
    s.drain.produced = s.produced ∧ s.drain.delivered = s.delivered ∧ s.drain.rom = s.rom ∧ s.drain.host = s.host := by
  rcases s.drain_cases with ⟨_, _, h⟩ | ⟨_, _, h⟩ | ⟨_, h1, h2, h⟩ | ⟨_, _, _, h1, h2, h⟩ <;> rw [h] <;>
    simp [State.produced, *]

/-! ### The whole step -/

/-- Everything a step can do: a transfer, a reset, the consumption of a token, or a step of the block. -/
theorem step_cases {s t : State} (h : step s = .next t) :
    (∃ x ms, s.host = .send x :: ms ∧ s.accepts = true ∧ t = { s with host := ms }.acceptXfer x) ∨
    (∃ ms, s.host = .reset :: ms ∧ t = { s with host := ms }.assertReset) ∨
    (∃ k ms, s.host = .take :: ms ∧ s.out = some k ∧ t = { s with host := ms }.hostTake k) ∨
    (∃ ms, s.host = .wait :: ms ∧ blockStep { s with host := ms } = .next t) ∨
    (s.host.head? ≠ some .reset ∧ blockStep s = .next t) := by
  unfold step at h
  split at h
  · rename_i hh; exact .inr (.inr (.inr (.inr ⟨by simp [hh], h⟩)))
  · rename_i ms hh; exact .inr (.inr (.inr (.inl ⟨ms, hh, h⟩)))
  · rename_i ms hh; exact .inr (.inl ⟨ms, hh, by simpa using h.symm⟩)
  · rename_i x ms hh
    split at h
    · rename_i ha; exact .inl ⟨x, ms, hh, ha, by simpa using h.symm⟩
    · exact .inr (.inr (.inr (.inr ⟨by simp [hh], h⟩)))
  · rename_i ms hh
    split at h
    · rename_i k hk; exact .inr (.inr (.inl ⟨k, ms, hh, hk, by simpa using h.symm⟩))
    · exact .inr (.inr (.inr (.inr ⟨by simp [hh], h⟩)))

theorem step_send {s : State} {x : Xfer} {ms : List HostMove} (hh : s.host = .send x :: ms) (ha : s.accepts = true) :
    step s = .next ({ s with host := ms }.acceptXfer x) := by
  unfold step; rw [hh]; simp only [ha, if_true]

/-- Where no move of the host completes first, the step is the block's. -/
theorem step_eq_blockStep {s u : State} (h : s.blockStepsFrom u) : step s = blockStep u := by
  unfold State.blockStepsFrom at h
  unfold step
  split at h <;> simp_all

/-- The block steps from the state itself, but for a wait that is gone from the host's moves. -/
theorem blockStepsFrom_eq {s u : State} (h : s.blockStepsFrom u) : u = { s with host := u.host } := by
  unfold State.blockStepsFrom at h
  split at h
  · rw [h]
  · rw [h]
  · exact h.elim
  · rw [h.2]
  · rw [h.2]

/-- A host that wants a token waits for the block to produce one. -/
theorem step_take_waits {s : State} {ms : List HostMove} (hh : s.host = .take :: ms) (ho : s.out = none) :
    step s = blockStep s := step_eq_blockStep (by simp [State.blockStepsFrom, hh, ho])

/-! ### Runs -/

theorem run_zero (s : State) : run 0 s = .next s := rfl

theorem run_succ {s t : State} (h : step s = .next t) (k : Nat) : run (k + 1) s = run k t := by
  simp only [run, Host.Core.run, show core.step s = .next t from h]
  rfl

/-- A run goes on from where a shorter run ended. -/
theorem run_add {s t : State} {k : Nat} (h : run k s = .next t) (m : Nat) : run (k + m) s = run m t := by
  induction k generalizing s with
  | zero =>
    have e : s = t := by rw [run_zero] at h; injection h
    rw [e, Nat.zero_add]
  | succ k ih =>
    cases hs : step s with
    | next u => rw [run_succ hs] at h; rw [Nat.add_right_comm, run_succ hs]; exact ih h
    | fault f => simp only [run, Host.Core.run, show core.step s = .fault f from hs] at h; cases h
    | refused f => simp only [run, Host.Core.run, show core.step s = .refused f from hs] at h; cases h

end Sys2Proof.Machine
end

