-- ==== Sys2Proof/Tests/Slice0.lean ====
section
/-! SUPPORT. Tests on fixed values, each expected result taken from spec/95_test_vectors.md or an encoding table of the
spec, and for every statement that has hypotheses a witness that they can be met together. -/

namespace Sys2Proof.Tests

open Sys2Proof Sys2Proof.Machine

/-! ### Helpers -/

/-- A ROM whose word at address `a` is `0x1000 + a`, so that a record shows which entry was read. -/
def rom : AlarmRom := Vector.ofFn fun a => BitVec.ofNat 16 (0x1000 + a.val)

/-- The state after reset, with that ROM. -/
def s0 : State := { State.reset with rom := rom }

/-- The serialized response a step leaves, if it goes on. -/
def bytesOf : Result → List Byte
  | .next s => tokensBytes s.resp
  | .fault _ => []
  | .refused _ => []

/-- One row of a detector trace. -/
structure Det where
  pos : Nat
  phase : DetPhase
  pend : Bool
  cand : List Byte
  ncand : Reg16
  deriving DecidableEq, Repr

/-- The detector's elements. -/
def detOf : Except Fault State → Option Det
  | .ok s => some ⟨s.pos, s.detPhase, s.detPend, s.cand, s.ncand⟩
  | .error _ => none

/-- `Z*n`: `n` zero bytes. -/
def zeros (n : Nat) : List Byte := List.replicate n 0#8

/-! ### WellFormed refuses an ill-formed term for each of its checks -/

theorem test_extract_too_long : (Instr.extract (zeros 65536)).wellFormed = false := by
  have h := Config.bufMax_le
  simp only [Instr.wellFormed, fitsBuffer, zeros, List.length_replicate, decide_eq_false_iff_not]; omega

theorem test_unpack_too_long : (Instr.unpack (zeros 65536)).wellFormed = false := by
  have h := Config.bufMax_le
  simp only [Instr.wellFormed, fitsBuffer, zeros, List.length_replicate, decide_eq_false_iff_not]; omega

theorem test_rtAlarm_too_long : (Instr.rtAlarm (zeros 65536)).wellFormed = false := by
  have h := Config.bufMax_le
  simp only [Instr.wellFormed, fitsBuffer, zeros, List.length_replicate, decide_eq_false_iff_not]; omega

theorem test_alarm_wrong_length :
    (Instr.alarm (zeros 7)).wellFormed = false ∧ (Instr.alarm (zeros 9)).wellFormed = false := by decide

theorem test_frame_inner_marker :
    (Instr.frameCfg [0x01, 0xD2, 0x03, 0xAA, 0xBB]).wellFormed = false ∧
    (Instr.frameRt [0xD2, 0x03]).wellFormed = false ∧
    (Instr.frameUnknown 0xD2 [0x03, 0xAA, 0xBB]).wellFormed = false := by decide

theorem test_frame_known_command_is_not_unknown :
    (Instr.frameUnknown 0x52 [0, 0, 0]).wellFormed = false ∧
    (Instr.frameUnknown 0x7C [0, 0, 0]).wellFormed = false := by decide

theorem test_frame_too_long : (Instr.frameCfg (zeros 65533)).wellFormed = false := by
  have h := Config.bufMax_le
  simp only [Instr.wellFormed, frameBody, zeros, List.length_replicate, Bool.and_eq_false_iff,
    decide_eq_false_iff_not, Config.hdrLen, Config.markerLen]
  right; omega

/-! ### Words written out bit by bit from R51, R53 and R55 -/

theorem test_decode_extract :
    decodeIn .request [0b00000000#8, 0xD2, 0x03] = some (.extract [0xD2, 0x03]) := by decide

theorem test_decode_unpack : decodeIn .request [0b00000001#8, 0x7F] = some (.unpack [0x7F]) := by decide

theorem test_decode_alarm :
    decodeIn .request [0b00000010#8, 0, 0, 2, 0, 0, 0, 0, 0] = some (.alarm [0, 0, 2, 0, 0, 0, 0, 0]) := by decide

theorem test_decode_rtAlarm : decodeIn .request [0b00000011#8, 0, 1] = some (.rtAlarm [0, 1]) := by decide

theorem test_decode_reserved_header :
    decodeRequest 0b00000100#8 [] = .error .reservedHeader ∧
    decodeRequest 0b10000001#8 [0x12, 0x34] = .error .reservedHeader := by decide

theorem test_decode_overflow : decodeRequest 0b00000001#8 (zeros 65536) = .error .overflow := by
  have h := Config.bufMax_le
  unfold decodeRequest
  rw [if_neg (by decide), if_pos (by simp only [zeros, List.length_replicate]; omega)]

theorem test_decode_frameCfg :
    decodeFrame [0b11010010#8, 0b00000011#8, 0b01010010#8, 0x00, 0xAA, 0xBB] =
      .ok (.frameCfg [0x00, 0xAA, 0xBB]) := by decide

theorem test_decode_frameRt :
    decodeFrame [0b11010010#8, 0b00000011#8, 0b01111100#8, 0x00, 0x01, 0xAA, 0xBB] =
      .ok (.frameRt [0x00, 0x01, 0xAA, 0xBB]) := by decide

theorem test_decode_frameUnknown :
    decodeFrame [0b11010010#8, 0b00000011#8, 0b10011001#8, 0xAA] = .ok (.frameUnknown 0x99 [0xAA]) := by decide

theorem test_decode_frame_errors :
    decodeFrame [0xD2, 0x03] = .error .noCommand ∧ decodeFrame [0x03, 0xD2, 0x52] = .error .noMarker ∧
    decodeFrame [] = .error .noMarker ∧ decodeFrame [0xD2, 0x03, 0xD2, 0x03, 0x52] = .error .innerMarker := by decide

theorem test_decode_table_words :
    decodeTableWord 8 0x00 = some (.extract []) ∧ decodeTableWord 8 0x01 = some (.unpack []) ∧
    decodeTableWord 8 0x02 = some (.alarm (zeros 8)) ∧ decodeTableWord 8 0x03 = some (.rtAlarm []) ∧
    decodeTableWord 8 0x52 = some (.frameCfg [0, 0, 0]) ∧ decodeTableWord 8 0x7C = some (.frameRt [0, 0, 0]) ∧
    decodeTableWord 8 0x99 = some (.frameUnknown 0x99 [0, 0, 0]) ∧
    decodeTableWord 16 0x00 = none := by decide

/-! ### EXTRACT and the wire-frame rows -/

/-- V-FX-20: a marker inside a frame splits it. -/
theorem test_extract_v_fx_20 :
    bytesOf (exec (.extract [0xD2, 0x03, 0x52, 0xD2, 0x03, 0x7C, 0x00, 0x01, 0xAA, 0xBB]) s0) =
      [0x02, 0x00, 0x00, 0x02, 0x52, 0x00, 0x03, 0x01, 0x00, 0x01, 0x7C, 0x01, 0x00, 0x02, 0x00, 0x01, 0xAA, 0xBB,
        0x0F, 0x00, 0x00, 0x02, 0x00, 0x00, 0x00] := by decide

/-- V-FX-25: markers only. -/
theorem test_extract_v_fx_25 :
    bytesOf (exec (.extract [0xD2, 0x03, 0xD2, 0x03, 0xD2, 0x03]) s0) = [0x0F, 0x01, 0x00, 0x00, 0x00, 0x00, 0x00] := by
  decide

/-- V-FSM-01: after two `D2` one is held and the other dropped; the `03` opens a candidate. -/
theorem test_detector_v_fsm_01 :
    detOf (scanBytes [0xD2, 0xD2, 0x03, 0x52, 0x01, 0xAA, 0xBB] 2 s0) = some ⟨2, .prefixBytes, true, [], 0⟩ ∧
    detOf (scanBytes [0xD2, 0xD2, 0x03, 0x52, 0x01, 0xAA, 0xBB] 3 s0) = some ⟨3, .inCand, false, [0xD2, 0x03], 0⟩ ∧
    detOf (scanBytes [0xD2, 0xD2, 0x03, 0x52, 0x01, 0xAA, 0xBB] 7 s0) =
      some ⟨7, .inCand, false, [0xD2, 0x03, 0x52, 0x01, 0xAA, 0xBB], 0⟩ := by decide

/-- The FRAME of V-FX-08, the shortest accepted frame. -/
theorem test_frameCfg_v_fx_08 :
    bytesOf (exec (.frameCfg [0x00, 0xAA, 0xBB]) s0) = [0x01, 0x00, 0x00, 0x52, 0x00, 0x00, 0x01, 0x00, 0xAA, 0xBB] := by
  decide

/-- V-FX-07: header and suffix consume all five bytes. -/
theorem test_frameCfg_v_fx_07 :
    bytesOf (exec (.frameCfg [0xAA, 0xBB]) s0) = [0x02, 0x00, 0x00, 0x02, 0x52, 0x00, 0x05] := by decide

/-- The FRAME of V-FX-09. -/
theorem test_frameRt_v_fx_09 :
    bytesOf (exec (.frameRt [0x00, 0x01, 0xAA, 0xBB]) s0) =
      [0x01, 0x00, 0x00, 0x7C, 0x01, 0x00, 0x02, 0x00, 0x01, 0xAA, 0xBB] := by decide

/-- The CAND_ERR of V-FX-10: unknown command 0x99, 7 bytes. -/
theorem test_frameUnknown_v_fx_10 :
    bytesOf (exec (.frameUnknown 0x99 [0x00, 0x01, 0xAA, 0xBB]) s0) = [0x02, 0x00, 0x00, 0x03, 0x99, 0x00, 0x07] := by
  decide

/-- V-FX-11: EmptyPayload comes before the command. -/
theorem test_frameUnknown_v_fx_11 :
    bytesOf (exec (.frameUnknown 0x99 [0xAA]) s0) = [0x02, 0x00, 0x00, 0x02, 0x99, 0x00, 0x04] := by decide

/-! ### UNPACK, ALARM, RT_ALARM -/

/-- V-RU-08: big-endian, an odd last byte dropped. -/
theorem test_unpack_v_ru_08 :
    bytesOf (exec (.unpack [0x00, 0x10, 0x00, 0x03, 0x7F]) s0) =
      [0x03, 0x00, 0x00, 0x00, 0x10, 0x03, 0x00, 0x01, 0x00, 0x03, 0x0F, 0x00, 0x00, 0x02, 0x00, 0x00, 0x00] := by decide

/-- V-AD-02: ascending bit index, so descending case index; the ROM words are those of addresses 15 and 0. -/
theorem test_alarm_v_ad_02 :
    bytesOf (exec (.alarm [0x80, 0x01, 0, 0, 0, 0, 0, 0]) s0) =
      [0x05, 0x01, 0x00, 0x0F, 0x10, 0x0F, 0x05, 0x01, 0x0F, 0x00, 0x10, 0x00,
        0x0F, 0x00, 0x00, 0x02, 0x00, 0x00, 0x00] := by decide

/-- V-AD-12: nine bytes. -/
theorem test_alarm_v_ad_12 :
    bytesOf (exec (.alarm [0x80, 0, 0, 0, 0, 0, 0, 0, 0]) s0) = [0x0F, 0x05, 0x00, 0x00, 0x00, 0x00, 0x00] := by decide

/-- V-RT-02: ten registers. -/
theorem test_rtAlarm_v_rt_02 :
    bytesOf (exec (.rtAlarm (zeros 20)) s0) = [0x0F, 0x04, 0x00, 0x00, 0x00, 0x0A, 0x00] := by decide

set_option maxRecDepth 20000 in
/-- V-RT-07: the floor, three alarms; m(1,0), m(2,6) and m(4,15) stand at ROM addresses 0, 22 and 63. -/
theorem test_rtAlarm_v_rt_07 :
    bytesOf (exec (.rtAlarm (zeros 116 ++ [0x80, 0x00, 0x02, 0x00, 0x00, 0x00, 0x00, 0x01])) s0) =
      [0x04, 0x80, 0x00, 0x02, 0x00, 0x00, 0x00, 0x00, 0x01, 0x05, 0x01, 0x0F, 0x00, 0x10, 0x00,
        0x05, 0x02, 0x09, 0x06, 0x10, 0x16, 0x05, 0x04, 0x00, 0x0F, 0x10, 0x3F,
        0x0F, 0x00, 0x00, 0x03, 0x00, 0x3E, 0x01] := by decide

/-! ### Steps -/

/-- V-REQ-01: the header `04`, marked last, and then one step of SCAN. -/
theorem test_step_reserved_header :
    (match step { s0 with host := [.send ⟨0x04, true⟩] } with
      | .next t => bytesOf (step t)
      | _ => []) = [0x0F, 0x05, 0x00, 0x00, 0x00, 0x00, 0x00] := by decide

/-- A table word runs as the first instruction after reset. -/
theorem test_step_table_words :
    bytesOf (step (State.reset.withFetchWord 8 0x02)) = [0x0F, 0x00, 0x00, 0x00, 0x00, 0x00, 0x00] ∧
    bytesOf (step (State.reset.withFetchWord 8 0x7C)) =
      [0x01, 0x00, 0x00, 0x7C, 0x01, 0x00, 0x01, 0x00, 0x00, 0x00, 0x0F, 0x00, 0x00, 0x01, 0x00, 0x00, 0x00] := by decide

/-! ### Witnesses: each statement's hypotheses met together by concrete values -/

/-- A state in LOAD: the header of UNPACK and one data byte have been taken, the next byte is on its way. -/
def loading : State :=
  { State.reset with mode := .load, op := .unpack, dbuf := [0x12], nrecv := 1, host := [.send ⟨0x34, true⟩] }

/-- A state in SCAN: the request `01 12 34` has been gathered. -/
def scanning : State := { State.reset with mode := .scan, op := .unpack, dbuf := [0x12, 0x34], nrecv := 2 }

/-- A state in EMIT_END that holds the response of that request. -/
def emitting : State :=
  { State.reset with
    mode := .emitEnd, op := .unpack, dbuf := [0x12, 0x34], nrecv := 2, pos := 2
    resp := [.reg 0 0x1234, .endTok .ok 1 0 0] }

/-- The same with the first token in `out`. -/
def full : State := { emitting with out := some (.reg 0 0x1234), resp := [.endTok .ok 1 0 0] }

/-- A quiet state that still holds what an earlier request left behind. -/
def used : State :=
  { State.reset with
    op := .rtAlarm, dbuf := [0x12, 0x34, 0x56], nrecv := 3, pos := 3, ncand := 7, nrec := 9, endAux := 62
    delivered := [.endTok .ok 0 62 0] }

/-- A frame's bytes: V-FX-08. -/
def cfgFrame : List Byte := [0xD2, 0x03, 0x52, 0x00, 0xAA, 0xBB]

theorem fresh_s0 : s0.Fresh := ⟨rfl, rfl, rfl, rfl, rfl, rfl, rfl, rfl, rfl, rfl⟩

theorem le_bufMax {n : Nat} (h : n ≤ 129) : n ≤ Config.bufMax := le_trans h Config.bufMax_ge

theorem inv_loading : loading.Inv := by
  refine ⟨?_, ?_, ?_, Nat.zero_le _, fun _ => ⟨rfl, rfl, rfl, rfl, rfl, rfl, rfl, rfl, rfl, rfl⟩, ?_, ?_, ?_,
    Config.alarmMsg_conforms⟩
  · rw [Memory.wf_iff]; exact le_bufMax (by decide)
  · exact le_bufMax (n := 1) (by decide)
  · have h := Config.bufMax_ge
    change 1 = min 1 Config.bufMax
    omega
  · intro h; cases h
  · intro h; cases h
  · simp [State.produced, loading, State.reset]

theorem inv_used : used.Inv := by
  refine ⟨?_, ?_, ?_, by decide, ?_, fun _ => ⟨rfl, by simp [used, State.reset]⟩, ?_, ?_, Config.alarmMsg_conforms⟩
  · rw [Memory.wf_iff]; exact le_bufMax (by decide)
  · exact le_bufMax (n := 3) (by decide)
  · have h := Config.bufMax_ge
    change 3 = min 3 Config.bufMax
    omega
  · rintro (h | h) <;> cases h
  · intro h; cases h
  · intro t ht
    simp only [State.produced, used, State.reset, Option.toList_none, List.append_nil, List.mem_singleton] at ht
    subst ht; rfl

theorem witness_ResetAbandonsRequest : ∃ (s t : State) (x : Xfer) (ms ms' : List HostMove),
    (s.mode = .emitEnd ∧ s.out = some (.reg 0 0x1234) ∧ s.host = .reset :: []) ∧
    (t.mode = .load ∧ t.host = .reset :: ms ∧ ms = .send x :: ms') :=
  ⟨{ full with host := [.reset] }, { loading with host := [.reset, .send ⟨0x00, true⟩] }, ⟨0x00, true⟩,
    [.send ⟨0x00, true⟩], [], ⟨rfl, rfl, rfl⟩, ⟨rfl, rfl, rfl⟩⟩

theorem witness_HeaderStartsRequest : ∃ (s t : State) (x y : Xfer) (ms : List HostMove),
    (s.mode = .idle ∧ s.out = none ∧ s.host = .send x :: ms ∧ x.byte.toNat = 3 ∧ x.last = false) ∧
    (t.mode = .idle ∧ t.out = none ∧ t.host = .send y :: ms ∧ y.byte.toNat = 4 ∧ y.last = true) :=
  ⟨{ used with host := [.send ⟨0x03, false⟩] }, { used with host := [.send ⟨0x04, true⟩] }, ⟨0x03, false⟩,
    ⟨0x04, true⟩, [], ⟨rfl, rfl, rfl, rfl, rfl⟩, ⟨rfl, rfl, rfl, rfl, rfl⟩⟩

theorem witness_DataByteIsLoaded : ∃ (s t u : State) (x : Xfer) (ms : List HostMove),
    (s.mode = .load ∧ s.host = .send x :: ms ∧ s.nrecv + 1 = Config.bufMax ∧ s.hdrBad = false) ∧
    (t.mode = .load ∧ t.host = .send x :: ms ∧ t.nrecv = Config.bufMax ∧ t.hdrBad = false) ∧
    (u.mode = .load ∧ u.host = .send x :: ms ∧ u.nrecv + 1 = Config.bufMax ∧ u.hdrBad = true) :=
  ⟨{ loading with nrecv := Config.bufMax - 1 }, { loading with nrecv := Config.bufMax },
    { loading with nrecv := Config.bufMax - 1, hdrBad := true }, ⟨0x34, true⟩, [],
    ⟨rfl, rfl, Nat.sub_add_cancel (le_bufMax (by decide)), rfl⟩, ⟨rfl, rfl, rfl, rfl⟩,
    ⟨rfl, rfl, Nat.sub_add_cancel (le_bufMax (by decide)), rfl⟩⟩

theorem witness_SentRequestIsGathered : ∃ (s : State) (h : Byte) (data : List Byte) (rest : List HostMove),
    s.quiet ∧ s.host = sends h data ++ rest ∧ headerReserved h = 0#6 ∧ data.length ≤ Config.bufMax :=
  ⟨{ used with host := sends 0x01 [0x12, 0x34] ++ [.take] }, 0x01, [0x12, 0x34], [.take], ⟨rfl, rfl, rfl⟩, rfl, rfl,
    le_bufMax (by decide)⟩

theorem witness_StepRunsDecodedRequest : ∃ (s : State) (h : Byte) (data : List Byte) (i : Instr),
    s.mode = .scan ∧ s.op = headerOp h ∧ s.hdrBad = (headerReserved h != 0#6) ∧
    s.ovf = decide (Config.bufMax < data.length) ∧ (s.ovf = false → s.hdrBad = false → s.dbuf = data) ∧
    decodeRequest h data = .ok i ∧ s.host = [] ∧ s.out = none := by
  refine ⟨scanning, 0x01, [0x12, 0x34], .unpack [0x12, 0x34], rfl, rfl, rfl, ?_, fun _ _ => rfl, by decide, rfl, rfl⟩
  have h := Config.bufMax_ge
  change false = decide (Config.bufMax < 2)
  rw [eq_comm, decide_eq_false_iff_not]; omega

theorem witness_BadRequestsAreAnswered : ∃ (s t u : State) (x : Xfer),
    (s.mode = .scan ∧ s.blockStepsFrom s ∧ s.host = [.take] ∧ s.hdrBad = true ∧ s.ovf = true) ∧
    (t.mode = .scan ∧ t.blockStepsFrom t ∧ t.host = [.send x] ∧ t.hdrBad = false ∧ t.ovf = true) ∧
    (u.mode = .scan ∧ u.blockStepsFrom { u with host := [] } ∧ u.host = [.wait] ∧ u.hdrBad = false ∧ u.ovf = true) :=
  ⟨{ scanning with hdrBad := true, ovf := true, host := [.take] },
    { scanning with ovf := true, host := [.send ⟨0x00, true⟩] }, { scanning with ovf := true, host := [.wait] },
    ⟨0x00, true⟩, ⟨rfl, ⟨rfl, rfl⟩, rfl, rfl, rfl⟩, ⟨rfl, ⟨rfl, rfl⟩, rfl, rfl, rfl⟩, ⟨rfl, rfl, rfl, rfl, rfl⟩⟩

theorem witness_ExtractGivesResponse : ∃ (s : State) (buf buf' : List Byte), s.Fresh ∧
    (buf.length ≤ Config.bufMax ∧ surviving buf = []) ∧ (buf'.length ≤ Config.bufMax ∧ surviving buf' ≠ []) :=
  ⟨s0, [0xD2, 0x03], cfgFrame, fresh_s0, ⟨le_bufMax (by decide), by decide⟩, ⟨le_bufMax (by decide), by decide⟩⟩

theorem witness_ExtractNumbersSurvivors : ∃ (s : State) (buf c : List Byte),
    s.Fresh ∧ buf.length ≤ Config.bufMax ∧ surviving buf ≠ [] ∧ (surviving buf)[1]? = some c :=
  ⟨s0, cfgFrame ++ [0xD2, 0x03, 0x99], [0xD2, 0x03, 0x99], fresh_s0, le_bufMax (by decide), by decide, by decide⟩

theorem witness_ExtractRunsItsFrames : ∃ (s : State) (buf : List Byte),
    s.Fresh ∧ buf.length ≤ Config.bufMax ∧ cfgFrame ∈ surviving buf :=
  ⟨s0, 0xD2 :: cfgFrame ++ [0xD2, 0x03], fresh_s0, le_bufMax (by decide), by decide⟩

theorem witness_PrefixIsDropped : ∃ (s : State) (pre buf pre' buf' : List Byte), s.Fresh ∧
    ((pre ++ buf).length ≤ Config.bufMax ∧ hasMarker pre = false ∧ pre.getLast? ≠ some 0xD2#8 ∧
      buf.head? = some 0x03#8) ∧
    ((pre' ++ buf').length ≤ Config.bufMax ∧ hasMarker pre' = false ∧ pre'.getLast? = some 0xD2#8 ∧
      buf'.head? ≠ some 0x03#8) :=
  ⟨s0, [0x11], [0x03, 0xD2, 0x03], [0x11, 0xD2], cfgFrame, fresh_s0,
    ⟨le_bufMax (by decide), by decide, by decide, by decide⟩, ⟨le_bufMax (by decide), by decide, by decide, by decide⟩⟩

theorem witness_ConcatenatedFramesComeOut : ∃ (s : State) (fs : List Instr),
    s.Fresh ∧ fs ≠ [] ∧ (∀ i ∈ fs, i.space = .frame ∧ i.wellFormed = true) ∧
    (fs.flatMap encode).length ≤ Config.bufMax := by
  refine ⟨s0, [.frameCfg [0x00, 0xAA, 0xBB], .frameUnknown 0x99 []], fresh_s0, by decide, ?_, le_bufMax (by decide)⟩
  intro i hi
  have h := Config.bufMax_ge
  simp only [List.mem_cons, List.not_mem_nil, or_false] at hi
  rcases hi with rfl | rfl
  · refine ⟨rfl, ?_⟩
    simp only [Instr.wellFormed, frameBody, Bool.and_eq_true, decide_eq_true_eq]
    exact ⟨by decide, le_bufMax (by decide)⟩
  · refine ⟨rfl, ?_⟩
    simp only [Instr.wellFormed, frameBody, Bool.and_eq_true, decide_eq_true_eq]
    exact ⟨by decide, by decide, le_bufMax (by decide)⟩

theorem witness_BackToBackFramesKeepPayloads : ∃ (s : State) (p q : List Byte) (c d a b x y : Byte),
    s.Fresh ∧ ((c = 0x52#8 ∨ c = 0x7C#8) ∧ c = 0x7C#8) ∧ ((d = 0x52#8 ∨ d = 0x7C#8) ∧ d = 0x52#8) ∧ p ≠ [] ∧ q ≠ [] ∧
    hasMarker (c :: (p ++ [a, b])) = false ∧ hasMarker (d :: (q ++ [x, y])) = false ∧
    p.length + q.length + 10 ≤ Config.bufMax :=
  ⟨s0, [0x00, 0x10, 0x00, 0x03], [0x01, 0x02, 0x03, 0x04], 0x7C, 0x52, 0xAA, 0xBB, 0xCC, 0xDD, fresh_s0, by decide,
    by decide, by decide, by decide, by decide, by decide, le_bufMax (by decide)⟩

theorem witness_FramesAreClassified : ∃ (payload : List Byte) (cmd : Byte),
    payload ≠ [] ∧ payload.length = 1 ∧ cmd ≠ 0x52#8 ∧ cmd ≠ 0x7C#8 :=
  ⟨[0x00], 0x53, by decide, rfl, by decide, by decide⟩

theorem witness_ShortFramesAreEmpty : ∃ tail tail' : List Byte,
    (tail.length < 3 ∧ tail.length = 0) ∧ (tail'.length < 3 ∧ tail'.length = 2) :=
  ⟨[], [0xAA, 0xBB], by decide, by decide⟩

theorem witness_RegistersAreBigEndian : ∃ (payload : List Byte) (hi lo : Byte),
    payload[2 * 0]? = some hi ∧ payload[2 * 0 + 1]? = some lo ∧ payload.length = 3 :=
  ⟨[0x12, 0x34, 0x56], 0x12, 0x34, rfl, rfl, rfl⟩

theorem witness_OddByteIsIgnored : ∃ payload payload' : List Byte,
    (payload.length % 2 = 0 ∧ payload = []) ∧ (payload'.length % 2 = 0 ∧ payload'.length = 2) :=
  ⟨[], [0x12, 0x34], by decide, by decide⟩

theorem witness_AlarmGivesResponse : ∃ (s : State) (data : List Byte), data.length = 8 ∧ s.nrec = 0#16 :=
  ⟨s0, [0x80, 0x01, 0, 0, 0, 0, 0, 0], rfl, rfl⟩

theorem witness_AlarmRejectsOtherLengths : ∃ data data' : List Byte,
    (data.length ≠ 8 ∧ data.length = 7) ∧ (data'.length ≠ 8 ∧ data'.length = 9) :=
  ⟨zeros 7, zeros 9, by decide, by decide⟩

theorem witness_AlarmRecordsAreSetBits : ∃ (s : State) (data : List Byte) (hi lo : Byte),
    data.length = 8 ∧ s.nrec = 0#16 ∧ data[2 * 3]? = some hi ∧ data[2 * 3 + 1]? = some lo ∧
    (be16 hi lo).getLsbD 15 = true :=
  ⟨s0, [0, 0, 0, 0, 0, 0, 0x80, 0x00], 0x80, 0x00, rfl, rfl, rfl, rfl, by decide⟩

theorem witness_AlarmCountIsPopcount : ∃ (s : State) (data data' : List Byte), s.nrec = 0#16 ∧
    (data.length = 8 ∧ ∀ b ∈ data, b = 0#8) ∧ (data'.length = 8 ∧ ∀ b ∈ data', b = 0xFF#8) :=
  ⟨s0, zeros 8, List.replicate 8 0xFF, rfl, by decide, by decide⟩

theorem witness_SingleBitInverts : ∃ (s : State) (r b r' b' : Nat),
    s.nrec = 0#16 ∧ (r < 4 ∧ b < 16 ∧ r = 0 ∧ b = 0) ∧ (r' < 4 ∧ b' < 16 ∧ r' = 3 ∧ b' = 15) :=
  ⟨s0, 0, 0, 3, 15, rfl, by decide, by decide⟩

theorem witness_PinnedMessagesAreDelivered : ∃ s : State,
    AlarmRom.Conforms Config.readText s.rom ∧ s.nrec = 0#16 :=
  ⟨scanning, Config.alarmMsg_conforms, rfl⟩

theorem witness_RtAlarmNeedsFloor : ∃ payload payload' : List Byte,
    (payload.length / 2 < 62 ∧ payload = []) ∧ (payload'.length / 2 < 62 ∧ payload'.length = 123) :=
  ⟨[], zeros 123, by decide, by simp [zeros]⟩

theorem witness_RtAlarmGivesResponse : ∃ (s : State) (payload payload' : List Byte), s.nrec = 0#16 ∧
    (62 ≤ payload.length / 2 ∧ payload.length = 124) ∧ (62 ≤ payload'.length / 2 ∧ payload'.length = 126) :=
  ⟨s0, zeros 124, zeros 126, rfl, by simp [zeros], by simp [zeros]⟩

theorem witness_RtAlarmReadsAlarmBytesOnly : ∃ p q : List Byte,
    62 ≤ p.length / 2 ∧ p.length / 2 = q.length / 2 ∧ (p.drop 116).take 8 = (q.drop 116).take 8 ∧ p ≠ q :=
  ⟨0x01 :: zeros 123, zeros 125, by simp [zeros], by simp [zeros], by simp [zeros], by simp [zeros, List.replicate_succ]⟩

theorem witness_RtAlarmAgreesWithAlarm : ∃ (s : State) (payload : List Byte),
    62 ≤ payload.length / 2 ∧ s.nrec = 0#16 :=
  ⟨s0, zeros 116 ++ [0x80, 0x00, 0x02, 0x00, 0x00, 0x00, 0x00, 0x01], by simp [zeros], rfl⟩

theorem witness_TruncWarnIsExact : ∃ (i j : Instr) (s t u : State),
    (s.Fresh ∧ exec i s = .next t ∧ Token.endTok .ok 0 0 0 ∈ t.resp) ∧
    (exec j s = .next u ∧ (∃ payload, j = .rtAlarm payload ∧ payload.length / 2 < 62) ∧
      Token.endTok .insufficientData 0 0 0 ∈ u.resp) :=
  ⟨.unpack [], .rtAlarm [], s0, { s0 with mode := .emitEnd, resp := [.endTok .ok 0 0 0] },
    { s0 with mode := .emitEnd, endStatus := .insufficientData, resp := [.endTok .insufficientData 0 0 0] },
    ⟨fresh_s0, by rfl, by decide⟩, ⟨by rfl, ⟨[], rfl, by decide⟩, by decide⟩⟩

theorem witness_OneEndPerRequest : ∃ (i j : Instr) (s : State),
    s.Fresh ∧ i.isRequest = true ∧ j.isRequest = false :=
  ⟨.extract [], .frameRt [], s0, fresh_s0, rfl, rfl⟩

theorem witness_ExecLeavesTheRest : ∃ (i : Instr) (s t : State),
    exec i s = .next t ∧ (∀ buf, i ≠ .extract buf) ∧ i.isRequest = false :=
  ⟨.frameUnknown 0x99 [], s0,
    { s0 with ncand := 1, resp := [.candErr 0 .emptyPayload 0x99 3] }, by rfl, (by intro _ h; cases h), rfl⟩

theorem witness_DecodeEncodeRoundTrip : ∃ i j k : Instr,
    (i.wellFormed = true ∧ i = .alarm (zeros 8)) ∧ (j.wellFormed = true ∧ j = .extract cfgFrame) ∧
    (k.wellFormed = true ∧ k = .frameUnknown 0x53 [0xD2, 0x00, 0x03]) := by
  refine ⟨_, _, _, ⟨?_, rfl⟩, ⟨?_, rfl⟩, ⟨?_, rfl⟩⟩
  · decide
  · simp only [Instr.wellFormed, fitsBuffer, decide_eq_true_eq]; exact le_bufMax (by decide)
  · simp only [Instr.wellFormed, frameBody, Bool.and_eq_true, decide_eq_true_eq]
    exact ⟨by decide, by decide, le_bufMax (by decide)⟩

theorem witness_EncodeDecodeRoundTrip : ∃ (bytes bytes' : List Byte) (i j : Instr),
    (decodeIn .request bytes = some i ∧ i = .alarm [0x80]) ∧ (decodeIn .frame bytes' = some j ∧ j = .frameRt []) :=
  ⟨[0x02, 0x80], [0xD2, 0x03, 0x7C], .alarm [0x80], .frameRt [], ⟨by decide, rfl⟩, ⟨by decide, rfl⟩⟩

theorem witness_HeaderByteSelectsOperation : ∃ (h : Byte) (data : List Byte),
    data.length ≤ Config.bufMax ∧ 4 ≤ h.toNat ∧ h.toNat = 4 :=
  ⟨0x04, [0x12], le_bufMax (by decide), by decide, by decide⟩

theorem witness_TokensReadBack : ∀ t ∈ ([.frame 0 0x52 .cfg 1 [0x00] 0xAA 0xBB, .candErr 0 .emptyPayload 0x52 3,
    .candErr 1 .unknownCommand 0x99 7, .reg 0 0x1234, .alarmRaw 0x8000 0 0 1, .alarmRec 4 15 0 0xFFFF,
    .endTok .ok 3 62 1] : List Token), t.legal = true := by decide

theorem witness_EmitMovesOldestToken : ∃ (s u v : State) (t e : Token) (ts : List Token),
    (s.mode = .emitEnd ∧ s.out = none ∧ s.resp = t :: ts ∧ ts ≠ [] ∧ s.host.head? ≠ some .wait ∧
      s.host.head? ≠ some .reset ∧ s.host = [.take]) ∧
    (u.mode = .emitEnd ∧ u.out = none ∧ u.resp = [e] ∧ u.host.head? ≠ some .wait ∧ u.host.head? ≠ some .reset ∧
      u.host = []) ∧
    (v.mode = .emitEnd ∧ v.out = none ∧ v.resp = [e] ∧ v.host = .wait :: []) :=
  ⟨{ emitting with host := [.take] }, { full with out := none }, { full with out := none, host := [.wait] },
    .reg 0 0x1234, .endTok .ok 1 0 0, [.endTok .ok 1 0 0], ⟨rfl, rfl, rfl, by decide, by decide, by decide, rfl⟩,
    ⟨rfl, rfl, rfl, by decide, by decide, rfl⟩, ⟨rfl, rfl, rfl, rfl⟩⟩

theorem witness_TakeDeliversToken : ∃ (s : State) (t : Token) (ms : List HostMove),
    s.out = some t ∧ s.host = .take :: ms :=
  ⟨{ full with host := [.take] }, .reg 0 0x1234, [], rfl, rfl⟩

theorem witness_BlockHoldsForHost : ∃ (s t e u v w : State) (tok : Token) (x : Xfer) (ms : List HostMove),
    (s.out = some tok ∧ s.mode = .emitEnd ∧ s.host = []) ∧
    (t.out = some tok ∧ t.mode = .idle ∧ t.host = .send x :: ms) ∧
    (e.out = some tok ∧ e.mode = .emitEnd ∧ e.host = .send x :: ms) ∧
    (u.mode = .load ∧ u.host = []) ∧ (v.out = none ∧ v.mode = .load ∧ v.host = .take :: ms) ∧
    (w.mode = .emitEnd ∧ w.out ≠ none ∧ w.host = .wait :: ms) :=
  ⟨full, { full with mode := .idle, resp := [], host := [.send ⟨0x00, true⟩] },
    { full with host := [.send ⟨0x00, true⟩] }, { loading with host := [] }, { loading with host := [.take] },
    { full with host := [.wait] }, .reg 0 0x1234, ⟨0x00, true⟩, [], ⟨rfl, rfl, rfl⟩, ⟨rfl, rfl, rfl⟩,
    ⟨rfl, rfl, rfl⟩, ⟨rfl, rfl⟩, ⟨rfl, rfl, rfl⟩, ⟨rfl, by decide, rfl⟩⟩

/-- The next state of `loading`: its second and last data byte is taken. -/
def loaded : State := { loading with mode := .scan, dbuf := [0x12, 0x34], nrecv := 2, host := [] }

theorem step_loading : step loading = .next loaded := by
  have h : ¬Config.bufMax ≤ 1 := by have := Config.bufMax_ge; omega
  simp [step, loading, loaded, State.reset, State.accepts, State.acceptXfer, State.acceptData, h, phaseAfter]

theorem witness_TokensAreNeverLost : ∃ s t : State,
    s.Inv ∧ step s = .next t ∧ s.host.head? ≠ some .reset :=
  ⟨loading, loaded, inv_loading, step_loading, by decide⟩

theorem witness_OnlyHeaderLeavesIdle : ∃ s t : State, step s = .next t ∧ s.mode = .idle ∧ t.mode ≠ .idle :=
  ⟨{ used with host := [.send ⟨0x00, true⟩] }, { used with host := [] }.acceptHeader ⟨0x00, true⟩, by rfl, rfl,
    by decide⟩

theorem witness_RomIsNeverWritten : ∃ s t : State, step s = .next t := ⟨loading, loaded, step_loading⟩

theorem witness_StepKeepsInvariant : ∃ s t : State, s.Inv ∧ step s = .next t :=
  ⟨loading, loaded, inv_loading, step_loading⟩

theorem witness_NoStepStops : ∃ s : State, s.Inv ∧ s.mode = .load := ⟨loading, inv_loading, rfl⟩

theorem witness_RequestGetsItsResponse : ∃ (s : State) (h : Byte) (data : List Byte) (rest : List HostMove),
    s.quiet ∧ s.host = submit s.rom h data ++ rest ∧ data ≠ [] :=
  ⟨{ used with host := submit used.rom 0x01 [0x12, 0x34] }, 0x01, [0x12, 0x34], [], ⟨rfl, rfl, rfl⟩,
    (List.append_nil _).symm, by decide⟩

theorem witness_HistoryIsInvisible : ∃ s t : State,
    s.Inv ∧ t.Inv ∧ s.quiet ∧ t.quiet ∧ s.rom = t.rom ∧ s.host = t.host ∧ s ≠ t := by
  have d : ({ used with delivered := [] } : State).Inv := by
    have h := inv_used
    exact ⟨h.1, h.2, h.3, h.4, (by rintro (hm | hm) <;> cases hm), h.6, (by intro hm; cases hm),
      (by simp [State.produced, used, State.reset]), h.9⟩
  exact ⟨used, { used with delivered := [] }, inv_used, d, ⟨rfl, rfl, rfl⟩, ⟨rfl, rfl, rfl⟩, rfl, rfl,
    (by intro e; have := congrArg State.delivered e; cases this)⟩

end Sys2Proof.Tests
end

section
/-! What the four requests do in SCAN: the response of the pure functions (spec/00_scope.md R14), with the whole next
state where the operation has no detector of its own. -/

namespace Sys2Proof.Machine

/-! ### UNPACK, ALARM and RT_ALARM: the exact next state -/

theorem exec_unpack_eq (s : State) (payload : List Byte) :
    exec (.unpack payload) s = .next { s with
      pos := s.pos + payload.length, mode := .emitEnd, endStatus := .ok, endAux := 0#16
      resp := s.resp ++ unpackResponse payload } := by
  simp [exec, execUnpack, readRegs_eq, bind, Except.bind, pure, Except.pure, regTokens_eq, unpackResponse,
    State.endWith, State.emitAll, State.walked, endFlags]

theorem exec_alarm_of_length_ne (s : State) {data : List Byte} (h : data.length ≠ 8) :
    exec (.alarm data) s = .next (s.raise .badRequest 0#16) := if_neg h

theorem regRead_getD {rs : List Reg16} {k : Nat} (h : k < rs.length) : regRead rs k = .ok (rs.getD k 0#16) := by
  rw [regRead_ok h, List.getD_eq_getElem _ _ h]

theorem alarmResponse_of_length_eq (rom : AlarmRom) {data : List Byte} (h : data.length = 8) :
    alarmResponse rom data =
      let v := fun k => (regs data).getD k 0#16
      let recs := alarms rom ![v 0, v 1, v 2, v 3]
      recs.map AlarmRecord.token ++ [.endTok .ok (BitVec.ofNat 16 recs.length) 0#16 0#8] := by
  have hv : (fun r : Fin Config.nAlarmRegs => (regs data).getD r.val 0#16) =
      ![(regs data).getD 0 0#16, (regs data).getD 1 0#16, (regs data).getD 2 0#16, (regs data).getD 3 0#16] := by
    funext r
    fin_cases r <;> rfl
  simp only [alarmResponse, hv]
  exact if_pos h

theorem exec_alarm_of_length_eq (s : State) {data : List Byte} (h : data.length = 8) (hn : s.nrec = 0#16) :
    exec (.alarm data) s = .next { s with
      pos := s.pos + 8, mode := .emitEnd, endStatus := .ok, endAux := 0#16
      nrec := BitVec.ofNat 16 ((alarmResponse s.rom data).length - 1)
      resp := s.resp ++ alarmResponse s.rom data } := by
  have hread : ∀ k < 4, regRead (regs data) k = .ok ((regs data).getD k 0#16) := fun k hk =>
    regRead_getD (by rw [regs_length]; omega)
  simp only [exec, execAlarm, readRegs_eq, hread, decodeAlarms_eq, alarmResponse_of_length_eq _ h, bind, Except.bind,
    pure, Except.pure, Nat.reduceLT, outcomeOf_ok]
  rw [if_pos (show data.length = Config.alarmDataLen from h)]
  simp [State.endWith, State.emitRecords, State.emitAll, State.walked, endFlags, hn, h]

theorem exec_rtAlarm_of_short (s : State) {payload : List Byte} (h : payload.length / 2 < 62) :
    exec (.rtAlarm payload) s = .next ((s.walked payload.length).raise .insufficientData
      (BitVec.ofNat 16 (payload.length / 2))) := by
  simp [exec, execRtAlarm, readRegs_eq, regs_length, h, bind, Except.bind, pure, Except.pure]

/-- The guarded read of R111 is a read with default 0. -/
theorem regReadOrZero_eq_getD (rs : List Reg16) (k : Nat) : regReadOrZero rs k = rs.getD k 0#16 := by
  unfold regReadOrZero
  split
  · rfl
  · next h => exact (List.getD_eq_default _ _ (Nat.not_lt.mp h)).symm

/-- The four alarm registers of a runtime payload, as the pure function reads them. -/
theorem alarmRegs_eq (rs : List Reg16) :
    ![alarmReg rs 1, alarmReg rs 2, alarmReg rs 3, alarmReg rs 4] =
      fun r : Fin Config.nAlarmRegs => rs.getD (Config.alarmBase + r.val) 0#16 := by
  funext r
  fin_cases r <;> exact regReadOrZero_eq_getD rs _

theorem rtAlarmResponse_full (rom : AlarmRom) {payload : List Byte} (h : 62 ≤ payload.length / 2) :
    rtAlarmResponse rom payload =
      let v := fun r => alarmReg (regs payload) r
      let recs := alarms rom ![v 1, v 2, v 3, v 4]
      .alarmRaw (v 1) (v 2) (v 3) (v 4) :: recs.map AlarmRecord.token ++
        [.endTok .ok (BitVec.ofNat 16 recs.length) (BitVec.ofNat 16 (payload.length / 2))
          (endFlags (truncWarn (payload.length / 2)))] := by
  simp only [rtAlarmResponse, regs_length, alarmRegs_eq]
  rw [if_neg (Nat.not_lt.mpr h)]
  simp [alarmReg, regReadOrZero_eq_getD, endFlags, truncWarn]

theorem exec_rtAlarm_of_full (s : State) {payload : List Byte} (h : 62 ≤ payload.length / 2) (hn : s.nrec = 0#16) :
    exec (.rtAlarm payload) s = .next { s with
      pos := s.pos + payload.length, mode := .emitEnd, endStatus := .ok
      endAux := BitVec.ofNat 16 (payload.length / 2)
      nrec := BitVec.ofNat 16 ((rtAlarmResponse s.rom payload).length - 2)
      resp := s.resp ++ rtAlarmResponse s.rom payload } := by
  simp [exec, execRtAlarm, readRegs_eq, regs_length, Nat.not_lt.mpr h, decodeAlarms_eq, rtAlarmResponse_full _ h, bind,
    Except.bind, pure, Except.pure, State.endWith, State.emitRecords, State.emitAll, State.emit, State.walked, hn]

/-! ### EXTRACT: the next state but for what only the detector uses -/

/-- The 16 bits of `ncand` hold the number of survivors without a wrap, so they are zero only where there are none. -/
theorem survivorCount_ne_zero {buf : List Byte} (hb : buf.length ≤ Config.bufMax) (h : surviving buf ≠ []) :
    BitVec.ofNat 16 (surviving buf).length ≠ 0#16 := by
  have hle : 3 * (surviving buf).length ≤ buf.length := survivors_length buf
  have hmax := Config.bufMax_le
  have hpos := List.length_pos_iff.mpr h
  intro h0
  have := congrArg BitVec.toNat h0
  simp only [BitVec.toNat_ofNat] at this
  omega

theorem exec_extract_core {s : State} {buf : List Byte} (hf : s.Fresh) (hb : buf.length ≤ Config.bufMax) :
    ∃ t, exec (.extract buf) s = .next t ∧ t.pos = buf.length ∧
      t.core = { s.core with
        mode := .emitEnd
        ncand := BitVec.ofNat 16 (surviving buf).length
        endStatus := if surviving buf = [] then .noFramesFound else .ok
        endAux := 0#16
        resp := extractResponse buf } := by
  have hcore := flushed_fresh buf s hf.detPhase hf.detPend hf.ncand
  have hpos : (flushed (scanned buf s)).pos = buf.length := by simp [hf.pos]
  have hexec : exec (.extract buf) s = outcomeOf (finishScan (scanned buf s)) := by
    simp only [exec, execExtract, scanBytes_all buf s hf.pos, bind, Except.bind]
  rw [hexec, finishScan_ok]
  generalize flushed (scanned buf s) = u at hcore hpos
  have hn : u.ncand = BitVec.ofNat 16 (surviving buf).length := congrArg State.ncand hcore
  by_cases hs : surviving buf = []
  · refine ⟨u.raise .noFramesFound 0#16, by simp [hn, hs], hpos, ?_⟩
    calc (u.raise .noFramesFound 0#16).core = u.core.raise .noFramesFound 0#16 := rfl
      _ = _ := by rw [hcore]; simp [State.raise, State.endWith, endFlags, hs, extractResponse, candTokens, hf.resp]
  · refine ⟨u.endWith .ok u.ncand 0#16 0#8, by simp [hn, survivorCount_ne_zero hb hs], hpos, ?_⟩
    obtain ⟨c, cs, hc⟩ := List.exists_cons_of_ne_nil hs
    calc (u.endWith .ok u.ncand 0#16 0#8).core = u.core.endWith .ok u.ncand 0#16 0#8 := rfl
      _ = _ := by rw [hcore, hn]; simp [State.endWith, hc, extractResponse, hf.resp]

/-! ### All four at once -/

/-- SCAN has ended in `t` with the response `ts`: nothing of it has left yet, and `out`, the ROM and the host's side are
those of `s`. -/
structure Answers (s t : State) (ts : List Token) : Prop where
  mode : t.mode = .emitEnd
  resp : t.resp = ts
  out : t.out = s.out
  rom : t.rom = s.rom
  host : t.host = s.host
  delivered : t.delivered = s.delivered

theorem exec_request_answers {s : State} (op : Op) {data : List Byte} (hf : s.Fresh)
    (hb : data.length ≤ Config.bufMax) :
    ∃ t, exec (instrOf op data) s = .next t ∧ Answers s t (opResponse s.rom op data) := by
  cases op with
  | extract =>
    obtain ⟨t, ht, -, hcore⟩ := exec_extract_core hf hb
    exact ⟨t, ht, (congrArg State.mode hcore :), (congrArg State.resp hcore :), (congrArg State.out hcore :),
      (congrArg State.rom hcore :), (congrArg State.host hcore :), (congrArg State.delivered hcore :)⟩
  | unpack => exact ⟨_, exec_unpack_eq s data, rfl, by simp [hf.resp, opResponse], rfl, rfl, rfl, rfl⟩
  | alarm =>
    by_cases h : data.length = 8
    · exact ⟨_, exec_alarm_of_length_eq s h hf.nrec, rfl, by simp [hf.resp, opResponse], rfl, rfl, rfl, rfl⟩
    · exact ⟨_, exec_alarm_of_length_ne s h, rfl, by simp [hf.resp, opResponse, alarmResponse_other _ h],
        rfl, rfl, rfl, rfl⟩
  | rtAlarm =>
    by_cases h : data.length / 2 < 62
    · exact ⟨_, exec_rtAlarm_of_short s h, rfl, by simp [hf.resp, opResponse, rtAlarmResponse_short _ h],
        rfl, rfl, rfl, rfl⟩
    · exact ⟨_, exec_rtAlarm_of_full s (Nat.not_lt.mp h) hf.nrec, rfl, by simp [hf.resp, opResponse],
        rfl, rfl, rfl, rfl⟩

/-! ### The priority of R122 -/

theorem decodeRequest_of_reserved {h : Byte} (hr : headerReserved h ≠ 0#6) (data : List Byte) :
    decodeRequest h data = .error .reservedHeader := by simp [decodeRequest, hr]

theorem decodeRequest_of_overflow {h : Byte} (hr : headerReserved h = 0#6) {data : List Byte}
    (hl : Config.bufMax < data.length) : decodeRequest h data = .error .overflow := by simp [decodeRequest, hr, hl]

theorem decodeRequest_of_fits {h : Byte} (hr : headerReserved h = 0#6) {data : List Byte}
    (hl : data.length ≤ Config.bufMax) : decodeRequest h data = .ok (instrOf (headerOp h) data) := by
  simp [decodeRequest, hr, Nat.not_lt.mpr hl]

/-- In SCAN a request is answered by its response, a rejected one by the `END` of its reason alone. -/
theorem blockStep_scan_answers {s : State} {h : Byte} {data : List Byte} (hm : s.mode = .scan) (hf : s.Fresh)
    (hfetch : fetch s = decodeRequest h data) :
    ∃ t, blockStep s = .next t ∧ Answers s t (requestResponse s.rom h data) := by
  have hreject : ∀ e, Answers s (s.rejectRequest e) [.endTok (rejectStatus e) 0#16 0#16 0#8] := fun e =>
    ⟨rfl, by simp [hf.resp], rfl, rfl, rfl, rfl⟩
  unfold blockStep requestResponse
  rw [hm, hfetch]
  by_cases hr : headerReserved h = 0#6
  · rw [if_neg (not_not.mpr hr)]
    by_cases hl : Config.bufMax < data.length
    · rw [if_pos hl, decodeRequest_of_overflow hr hl]
      exact ⟨_, rfl, hreject .overflow⟩
    · rw [if_neg hl, decodeRequest_of_fits hr (Nat.not_lt.mp hl)]
      exact exec_request_answers (headerOp h) hf (Nat.not_lt.mp hl)
  · rw [if_pos hr, decodeRequest_of_reserved hr]
    exact ⟨_, rfl, hreject .reservedHeader⟩

/-- Every response holds at least its `END` (R58). -/
theorem opResponse_ne_nil (rom : AlarmRom) (op : Op) (data : List Byte) : opResponse rom op data ≠ [] := by
  cases op with
  | extract => simp only [opResponse, extractResponse]; split <;> simp
  | unpack => simp [opResponse, unpackResponse]
  | alarm => simp only [opResponse, alarmResponse]; split <;> simp
  | rtAlarm => simp only [opResponse, rtAlarmResponse]; split <;> simp

theorem requestResponse_ne_nil (rom : AlarmRom) (h : Byte) (data : List Byte) : requestResponse rom h data ≠ [] := by
  unfold requestResponse
  split
  · simp
  · split
    · simp
    · exact opResponse_ne_nil rom _ data

end Sys2Proof.Machine
end

section
/-! The request channel over several steps: what LOAD has gathered from a header and the data bytes sent so far
(spec/10_state.md R24, spec/30_encoding.md R54). -/

namespace Sys2Proof.Machine

/-- In `s` the block has taken the header `h` and behind it the data bytes `pre`, in LOAD or SCAN. What a bad header's
data bytes do is the model's reading (log entry 6). -/
structure Gathered (h : Byte) (pre : List Byte) (s : State) : Prop where
  op : s.op = headerOp h
  hdrBad : s.hdrBad = (headerReserved h != 0#6)
  nrecv : s.nrecv = min pre.length (Config.bufMax + 1)
  ovf : s.ovf = decide (Config.bufMax < pre.length)
  dbuf : s.dbuf = if s.hdrBad then [] else pre.take Config.bufMax
  fresh : s.Fresh

theorem Gathered.withHost {h : Byte} {pre : List Byte} {s : State} (g : Gathered h pre s) (ms : List HostMove) :
    Gathered h pre { s with host := ms } :=
  ⟨g.op, g.hdrBad, g.nrecv, g.ovf, g.dbuf, ⟨g.fresh.pos, g.fresh.detPhase, g.fresh.detPend, g.fresh.cand,
    g.fresh.ncand, g.fresh.nrec, g.fresh.endStatus, g.fresh.endAux, g.fresh.out, g.fresh.resp⟩⟩

/-- A header starts the next request with clean working elements, whatever stood in the state. -/
theorem gathered_acceptHeader (s : State) (x : Xfer) : Gathered x.byte [] (s.acceptHeader x) :=
  ⟨rfl, rfl, rfl, rfl, by simp, ⟨rfl, rfl, rfl, rfl, rfl, rfl, rfl, rfl, rfl, rfl⟩⟩

theorem State.Fresh.acceptData {s : State} (hf : s.Fresh) (x : Xfer) : (s.acceptData x).Fresh := by
  obtain ⟨h1, h2, h3, h4, h5, h6, h7, h8, h9, h10⟩ := hf
  unfold State.acceptData
  split
  · exact ⟨h1, h2, h3, h4, h5, h6, h7, h8, h9, h10⟩
  · split <;> exact ⟨h1, h2, h3, h4, h5, h6, h7, h8, h9, h10⟩

theorem Gathered.acceptData {h : Byte} {pre : List Byte} {s : State} (g : Gathered h pre s) (x : Xfer) :
    Gathered h (pre ++ [x.byte]) (s.acceptData x) := by
  have hf := g.fresh.acceptData x
  obtain ⟨hop, hbad, hn, hovf, hbuf, -⟩ := g
  by_cases hfull : Config.bufMax ≤ s.nrecv
  · have hlen : Config.bufMax ≤ pre.length := by omega
    rw [State.acceptData_of_full s x hfull] at hf ⊢
    refine ⟨hop, hbad, ?_, ?_, ?_, hf⟩
    · simp; omega
    · simp; omega
    · simp [hbuf, List.take_append_of_le_length hlen]
  · have hlt := Nat.not_le.mp hfull
    have hlen : pre.length < Config.bufMax := by omega
    have hcount : s.nrecv + 1 = min (pre ++ [x.byte]).length (Config.bufMax + 1) := by simp; omega
    have hfits : s.ovf = decide (Config.bufMax < (pre ++ [x.byte]).length) := by
      rw [hovf]; simp; omega
    cases hb : s.hdrBad
    · rw [State.acceptData_of_good s x hlt hb] at hf ⊢
      refine ⟨hop, hbad, hcount, hfits, ?_, hf⟩
      simp [hb, hbuf, List.take_of_length_le, hlen.le, Nat.succ_le_of_lt hlen]
    · rw [State.acceptData_of_bad s x hlt hb] at hf ⊢
      exact ⟨hop, hbad, hcount, hfits, by simp [hbuf, hb], hf⟩

/-- What has been gathered is fetched as its bytes decode. -/
theorem Gathered.fetch_eq {h : Byte} {data : List Byte} {s : State} (g : Gathered h data s) :
    fetch s = decodeRequest h data := by
  unfold fetch
  by_cases hr : headerReserved h = 0#6
  · by_cases hl : Config.bufMax < data.length
    · simp [decodeRequest_of_overflow hr hl, g.hdrBad, g.ovf, hr, hl]
    · have hle := Nat.not_lt.mp hl
      simp [decodeRequest_of_fits hr hle, g.hdrBad, g.ovf, g.op, g.dbuf, hr, hl, List.take_of_length_le hle]
  · simp [decodeRequest_of_reserved hr, g.hdrBad, hr]

/-! ### Steps and runs of transfers -/

theorem run_one {s t : State} (h : step s = .next t) : run 1 s = .next t := run_succ h 0

/-- A run followed by a run. -/
theorem run_trans {s t u : State} {k m : Nat} (hk : run k s = .next t) (hm : run m t = .next u) :
    run (k + m) s = .next u := (run_add hk m).trans hm

theorem step_send_header {s : State} {x : Xfer} {ms : List HostMove} (hm : s.mode = .idle) (ho : s.out = none)
    (hh : s.host = .send x :: ms) : step s = .next ({ s with host := ms }.acceptHeader x) := by
  rw [step_send hh (by simp [State.accepts, hm, ho]), acceptXfer_idle (s := { s with host := ms }) hm]

theorem step_send_data {s : State} {x : Xfer} {ms : List HostMove} (hm : s.mode = .load)
    (hh : s.host = .send x :: ms) : step s = .next ({ s with host := ms }.acceptData x) := by
  rw [step_send hh (by simp [State.accepts, hm]), acceptXfer_load (s := { s with host := ms }) hm]

/-- One data byte in LOAD: gathered, and nothing the host has or sees is changed but the move itself. -/
theorem step_load {s : State} {h : Byte} {pre : List Byte} {x : Xfer} {ms : List HostMove} (hm : s.mode = .load)
    (g : Gathered h pre s) (hh : s.host = .send x :: ms) :
    ∃ t, step s = .next t ∧ t.mode = phaseAfter x.last ∧ Gathered h (pre ++ [x.byte]) t ∧ t.host = ms ∧
      t.rom = s.rom ∧ t.delivered = s.delivered := by
  obtain ⟨hmode, hrom, -, -, hhost, hdel⟩ := acceptData_keeps { s with host := ms } x
  exact ⟨_, step_send_data hm hh, hmode, (g.withHost ms).acceptData x, hhost, hrom, hdel⟩

/-- The data bytes in LOAD lead to SCAN, one step a byte. -/
theorem run_dataSends {data : List Byte} (hd : data ≠ []) {s : State} {h : Byte} {pre : List Byte}
    {rest : List HostMove} (hm : s.mode = .load) (g : Gathered h pre s) (hh : s.host = dataSends data ++ rest) :
    ∃ t, run data.length s = .next t ∧ t.mode = .scan ∧ Gathered h (pre ++ data) t ∧ t.host = rest ∧
      t.rom = s.rom ∧ t.delivered = s.delivered := by
  induction data using dataSends.induct generalizing s pre with
  | case1 => exact absurd rfl hd
  | case2 b =>
    obtain ⟨t, hs, ht⟩ := step_load (x := ⟨b, true⟩) hm g hh
    exact ⟨t, run_one hs, ht⟩
  | case3 b c bs ih =>
    obtain ⟨t, hs, htm, htg, hth, htr, htd⟩ := step_load (x := ⟨b, false⟩) hm g hh
    obtain ⟨u, hu, hum, hug, huh, hur, hud⟩ := ih (List.cons_ne_nil c bs) htm htg hth
    exact ⟨u, (run_succ hs _).trans hu, hum, by simpa using hug, huh, hur.trans htr, hud.trans htd⟩

/-- The moves that send a request, in IDLE with `out` empty, lead to SCAN, one step a byte. -/
theorem run_sends {s : State} {h : Byte} {data : List Byte} {rest : List HostMove} (hm : s.mode = .idle)
    (ho : s.out = none) (hh : s.host = sends h data ++ rest) :
    ∃ t, run (1 + data.length) s = .next t ∧ t.mode = .scan ∧ Gathered h data t ∧ t.host = rest ∧
      t.rom = s.rom ∧ t.delivered = s.delivered := by
  have hs := step_send_header hm ho hh
  have hrun := run_one hs
  have g := gathered_acceptHeader { s with host := dataSends data ++ rest } ⟨h, data.isEmpty⟩
  by_cases hd : data = []
  · subst hd
    exact ⟨_, hrun, rfl, g, rfl, rfl, rfl⟩
  · have hload : phaseAfter data.isEmpty = .load := by simp [phaseAfter, hd]
    obtain ⟨t, ht, htm, htg, hth, htr, htd⟩ := run_dataSends hd hload g rfl
    exact ⟨t, run_trans hrun ht, htm, htg, hth, htr, htd⟩

end Sys2Proof.Machine
end

section
/-! The response channel over several steps, and from it the whole request (spec/10_state.md R24, R25,
spec/00_scope.md R14). -/

namespace Sys2Proof.Machine

theorem step_take_of_full {s : State} {t : Token} {ms : List HostMove} (ho : s.out = some t)
    (hh : s.host = .take :: ms) : step s = .next ({ s with host := ms }.hostTake t) := by
  unfold step
  rw [hh]
  simp only [ho]

/-- In EMIT_END with `out` empty, `drain` moves the oldest token to `out`, and ends in IDLE behind the last. -/
theorem State.drain_of_cons {s : State} {t : Token} {ts : List Token} (hm : s.mode = .emitEnd) (ho : s.out = none)
    (hr : s.resp = t :: ts) :
    s.drain = { s with out := some t, resp := ts, mode := if ts = [] then .idle else .emitEnd } := by
  cases ts with
  | nil => exact State.drain_of_last s t ho hr
  | cons u us => simp [State.drain_of_more s t u us ho hr, hm]

/-- In EMIT_END a host that wants a token gets the oldest one after two steps: the block emits it, the host takes it. -/
theorem run_emit_take {s : State} {t : Token} {ts : List Token} {ms : List HostMove} (hm : s.mode = .emitEnd)
    (ho : s.out = none) (hr : s.resp = t :: ts) (hh : s.host = .take :: ms) :
    run 2 s = .next { s with
      resp := ts, mode := if ts = [] then .idle else .emitEnd, host := ms, delivered := s.delivered ++ [t] } := by
  have hdrain := State.drain_of_cons hm ho hr
  have hemit : step s = .next s.drain := by rw [step_take_waits hh ho, blockStep, hm]
  have hout : s.drain.out = some t := by rw [hdrain]
  have hhost : s.drain.host = .take :: ms := by rw [hdrain, hh]
  rw [run_succ hemit 1, run_one (step_take_of_full hout hhost), State.hostTake, hdrain, ho]

/-- In EMIT_END a host that consumes as many tokens as are left gets them in order, two steps a token, and the block is
quiet behind the last. -/
theorem run_takes {ts : List Token} (hts : ts ≠ []) {s : State} {rest : List HostMove} (hm : s.mode = .emitEnd)
    (ho : s.out = none) (hr : s.resp = ts) (hh : s.host = List.replicate ts.length .take ++ rest) :
    ∃ t, run (2 * ts.length) s = .next t ∧ t.quiet ∧ t.delivered = s.delivered ++ ts ∧ t.host = rest ∧
      t.rom = s.rom := by
  induction ts generalizing s with
  | nil => exact absurd rfl hts
  | cons k ks ih =>
    have hrun := run_emit_take hm ho hr hh
    by_cases hks : ks = []
    · subst hks
      exact ⟨_, hrun, ⟨rfl, ho, rfl⟩, rfl, rfl, rfl⟩
    · obtain ⟨t, ht, hq, hd, hhost, hrom⟩ := ih hks (s := { s with
        resp := ks, mode := if ks = [] then .idle else .emitEnd, delivered := s.delivered ++ [k],
        host := List.replicate ks.length .take ++ rest }) (if_neg hks) ho rfl rfl
      refine ⟨t, ?_, hq, by simpa using hd, hhost, hrom⟩
      rw [List.length_cons, Nat.mul_succ, Nat.add_comm]
      exact run_trans hrun ht

/-- One step of SCAN while the host waits for a token: the whole response stands in `resp`. -/
theorem step_scan_answers {s : State} {h : Byte} {data : List Byte} {ms : List HostMove} (hm : s.mode = .scan)
    (g : Gathered h data s) (hh : s.host = .take :: ms) :
    ∃ t, step s = .next t ∧ Answers s t (requestResponse s.rom h data) := by
  rw [step_take_waits hh g.fresh.out]
  exact blockStep_scan_answers hm g.fresh g.fetch_eq

end Sys2Proof.Machine

namespace Sys2Proof.Proofs

open Sys2Proof Sys2Proof.Machine

/-- Settles O48: the request is sent (`run_sends`), answered in one step of SCAN (`step_scan_answers`), and its tokens
are consumed two steps each (`run_takes`). -/
theorem requestGetsItsResponse : Obligations.RequestGetsItsResponse := by
  unfold Obligations.RequestGetsItsResponse
  intro s h data rest ⟨hm, ho, _⟩ hh
  have hne := requestResponse_ne_nil s.rom h data
  obtain ⟨n, hn⟩ := Nat.exists_eq_succ_of_ne_zero (List.length_pos_iff.mpr hne).ne'
  rw [submit, List.append_assoc] at hh
  obtain ⟨t, ht, htm, htg, hth, htr, htd⟩ := run_sends hm ho hh
  have htake : t.host = .take :: (List.replicate n .take ++ rest) := by rw [hth, hn]; rfl
  obtain ⟨u, hu, hans⟩ := step_scan_answers htm htg htake
  rw [htr] at hans
  obtain ⟨v, hv, hq, hvd, hvh, hvr⟩ :=
    run_takes hne hans.mode (hans.out.trans htg.fresh.out) hans.resp (hans.host.trans hth)
  refine ⟨v, ?_, hq, ?_, hvh, ?_⟩
  · rw [show data.length + 2 = 1 + data.length + 1 by omega]
    exact run_trans (run_trans ht (run_one hu)) hv
  · rw [hvd, hans.delivered, htd]
  · rw [hvr, hans.rom, htr]

end Sys2Proof.Proofs
end

section
/-! What no instruction changes, from any state (spec/10_state.md R20, R26, spec/20_memory.md R35, R49): what an
instruction can leave is said once, and the frame is read off it. -/

namespace Sys2Proof.Machine

/-! ### What an instruction can leave -/

/-- From `s` to `t` only what UNPACK, ALARM and RT_ALARM write has changed: the scan position, the alarm count, the phase
and the pending `END`, and the response, which has grown. -/
def WritesAnswer (s t : State) : Prop :=
  t = { s with
    pos := t.pos, nrec := t.nrec, mode := t.mode, endStatus := t.endStatus, endAux := t.endAux, resp := t.resp } ∧
  s.resp <+: t.resp

theorem writesAnswer_unpack {payload : List Byte} {s t : State} (h : exec (.unpack payload) s = .next t) :
    WritesAnswer s t := by
  rw [exec_unpack_eq, Host.Outcome.next.injEq] at h
  subst h
  exact ⟨rfl, List.prefix_append _ _⟩

theorem writesAnswer_alarm {data : List Byte} {s t : State} (h : exec (.alarm data) s = .next t) :
    WritesAnswer s t := by
  by_cases hl : data.length = 8
  · have hread : ∀ k < 4, regRead (regs data) k = .ok ((regs data).getD k 0#16) := fun k hk =>
      regRead_getD (by rw [regs_length]; omega)
    simp only [exec, execAlarm, readRegs_eq, hread, decodeAlarms_eq, bind, Except.bind, pure, Except.pure,
      Nat.reduceLT, outcomeOf_ok] at h
    rw [if_pos (show data.length = Config.alarmDataLen from hl), Host.Outcome.next.injEq] at h
    subst h
    exact ⟨rfl, (List.prefix_append _ _).trans (List.prefix_append _ _)⟩
  · rw [exec_alarm_of_length_ne s hl, Host.Outcome.next.injEq] at h
    subst h
    exact ⟨rfl, List.prefix_append _ _⟩

theorem writesAnswer_rtAlarm {payload : List Byte} {s t : State} (h : exec (.rtAlarm payload) s = .next t) :
    WritesAnswer s t := by
  by_cases hl : payload.length / 2 < 62
  · rw [exec_rtAlarm_of_short s hl, Host.Outcome.next.injEq] at h
    subst h
    exact ⟨rfl, List.prefix_append _ _⟩
  · simp only [exec, execRtAlarm, readRegs_eq, regs_length, hl, decodeAlarms_eq, bind, Except.bind, pure, Except.pure,
      Config.rtMinRegs, if_false, outcomeOf_ok, Host.Outcome.next.injEq] at h
    subst h
    exact ⟨rfl, ((List.prefix_append _ _).trans (List.prefix_append _ _)).trans (List.prefix_append _ _)⟩

/-- Everything an instruction can do. -/
theorem exec_cases {i : Instr} {s t : State} (h : exec i s = .next t) :
    (∃ buf, i = .extract buf ∧ execExtract buf s = .next t) ∨
    (i.isRequest = true ∧ WritesAnswer s t) ∨
    (i.isRequest = false ∧ t = closed (encode i) s) := by
  have hframe (hi : i.isRequest = false) : t = closed (encode i) s := by
    simpa [h] using (exec_frame i s hi).1
  cases i with
  | extract buf => exact .inl ⟨buf, rfl, h⟩
  | unpack payload => exact .inr (.inl ⟨rfl, writesAnswer_unpack h⟩)
  | alarm data => exact .inr (.inl ⟨rfl, writesAnswer_alarm h⟩)
  | rtAlarm payload => exact .inr (.inl ⟨rfl, writesAnswer_rtAlarm h⟩)
  | frameCfg tail => exact .inr (.inr ⟨rfl, hframe rfl⟩)
  | frameRt tail => exact .inr (.inr ⟨rfl, hframe rfl⟩)
  | frameUnknown cmd tail => exact .inr (.inr ⟨rfl, hframe rfl⟩)

/-! ### The frame -/

/-- An instruction keeps all that `Keeps` names but the alarm count, which ALARM and RT_ALARM write. -/
theorem exec_keeps {i : Instr} {s t : State} (h : exec i s = .next t) : Keeps { s with nrec := t.nrec } t := by
  have hnrec (k : Keeps s t) : Keeps { s with nrec := t.nrec } t :=
    { k with nrec := rfl }
  rcases exec_cases h with ⟨buf, -, ht⟩ | ⟨-, e, hresp⟩ | ⟨-, rfl⟩
  · exact hnrec (keeps_execExtract buf s t ht)
  · rw [e]
    exact ⟨rfl, rfl, rfl, rfl, rfl, rfl, rfl, rfl, rfl, rfl, hresp⟩
  · exact hnrec (keeps_closed (encode i) s)

@[simp] theorem closed_cand (c : List Byte) (s : State) : (closed c s).cand = s.cand := by
  unfold closed; split <;> rfl

/-- Only EXTRACT runs the marker detector. -/
theorem exec_keeps_detector {i : Instr} {s t : State} (h : exec i s = .next t) (hi : ∀ buf, i ≠ .extract buf) :
    t.detPhase = s.detPhase ∧ t.detPend = s.detPend ∧ t.cand = s.cand := by
  rcases exec_cases h with ⟨buf, hbuf, -⟩ | ⟨-, e, -⟩ | ⟨-, rfl⟩
  · exact absurd hbuf (hi buf)
  · rw [e]
    exact ⟨rfl, rfl, rfl⟩
  · exact ⟨closed_detPhase _ _, closed_detPend _ _, closed_cand _ _⟩

/-- A wire-frame row ends nothing, and walks no data. -/
theorem exec_frame_keeps {i : Instr} {s t : State} (h : exec i s = .next t) (hi : i.isRequest = false) :
    t.pos = s.pos ∧ t.nrec = s.nrec ∧ t.endStatus = s.endStatus ∧ t.endAux = s.endAux := by
  have e : t = closed (encode i) s := by simpa [h] using (exec_frame i s hi).1
  rw [e]
  unfold closed
  split <;> exact ⟨rfl, rfl, rfl, rfl⟩

end Sys2Proof.Machine

namespace Sys2Proof.Proofs

open Sys2Proof Sys2Proof.Machine

/-- Settles O32, from `exec_keeps` and what is left alone by the instructions that are not EXTRACT or are no request. -/
theorem execLeavesTheRest : Obligations.ExecLeavesTheRest := by
  unfold Obligations.ExecLeavesTheRest
  intro i s t h
  obtain ⟨hop, hbad, hbuf, hnrecv, hovf, -, hout, hrom, hhost, hdel, hresp⟩ := exec_keeps h
  exact ⟨hop, hbad, hbuf, hnrecv, hovf, hout, hrom, hhost, hdel, hresp, fun a => by rw [hbuf],
    exec_keeps_detector h, exec_frame_keeps h⟩

end Sys2Proof.Proofs
end

section
/-! The last token of a response and its flags (spec/10_state.md R19, spec/30_encoding.md R58): every response is tokens
that are no `END`, and behind them one `END`. -/

namespace Sys2Proof.Machine

/-- Tokens that are no `END`, and behind them one `END` with flags `f`. -/
def EndsWithFlags (f : Byte) (ts : List Token) : Prop :=
  ∃ body st c a, ts = body ++ [.endTok st c a f] ∧ ∀ t ∈ body, t.isEnd = false

theorem EndsWithFlags.endsOnce {f : Byte} {ts : List Token} (h : EndsWithFlags f ts) : endsOnce ts := by
  obtain ⟨body, st, c, a, e, hbody⟩ := h
  exact ⟨body, _, e, rfl, hbody⟩

/-- There is no other `END` whose flags could differ. -/
theorem EndsWithFlags.flags_eq {f g : Byte} {ts : List Token} {st : Status} {c a : Reg16} (h : EndsWithFlags f ts)
    (hm : .endTok st c a g ∈ ts) : g = f := by
  obtain ⟨body, st', c', a', rfl, hbody⟩ := h
  rcases List.mem_append.mp hm with hb | hl
  · cases hbody _ hb
  · cases List.mem_singleton.mp hl
    rfl

/-! ### The responses of the pure functions -/

/-- R114: RT_ALARM on exactly `RT_MIN_REGS` registers warns. -/
def warns : Instr → Bool
  | .rtAlarm payload => truncWarn (payload.length / 2)
  | _ => false

theorem warns_iff (i : Instr) : warns i = true ↔ ∃ payload, i = .rtAlarm payload ∧ payload.length / 2 = 62 := by
  cases i <;> simp [warns, truncWarn]

theorem unpackResponse_ends (payload : List Byte) : EndsWithFlags 0#8 (unpackResponse payload) := by
  refine ⟨_, _, _, _, rfl, fun t ht => ?_⟩
  obtain ⟨k, hk, rfl⟩ := List.mem_mapIdx.mp ht
  rfl

theorem alarmResponse_ends (rom : AlarmRom) (data : List Byte) : EndsWithFlags 0#8 (alarmResponse rom data) := by
  unfold alarmResponse
  split
  · exact ⟨_, _, _, _, rfl, records_isEnd rom _⟩
  · exact ⟨[], _, _, _, rfl, by simp⟩

theorem rtAlarmResponse_ends (rom : AlarmRom) (payload : List Byte) :
    EndsWithFlags (endFlags (warns (.rtAlarm payload))) (rtAlarmResponse rom payload) := by
  by_cases h : payload.length / 2 < 62
  · have hw : truncWarn (payload.length / 2) = false := by simp [truncWarn]; omega
    rw [rtAlarmResponse_short rom h, warns, hw]
    exact ⟨[], _, _, _, rfl, by simp⟩
  · rw [rtAlarmResponse_full rom (Nat.not_lt.mp h)]
    exact ⟨_, _, _, _, rfl, List.forall_mem_cons.mpr ⟨rfl, records_isEnd rom _⟩⟩

/-! ### The instructions -/

/-- The response of EXTRACT for a buffer of any length: the count of survivors may wrap, and then the status is another,
but the tokens before the `END` and its flags are the same. -/
theorem exec_extract_resp {s t : State} {buf : List Byte} (hf : s.Fresh) (h : exec (.extract buf) s = .next t) :
    ∃ st c, t.resp = candTokens 0 (surviving buf) ++ [.endTok st c 0#16 0#8] := by
  have hcore := flushed_fresh buf s hf.detPhase hf.detPend hf.ncand
  have hresp : (flushed (scanned buf s)).resp = s.resp ++ candTokens 0 (surviving buf) := congrArg State.resp hcore
  rw [hf.resp, List.nil_append] at hresp
  simp only [exec, execExtract, scanBytes_all buf s hf.pos, bind, Except.bind, finishScan_ok, outcomeOf_ok,
    Host.Outcome.next.injEq] at h
  rw [← h, ← hresp]
  split
  · exact ⟨_, _, rfl⟩
  · exact ⟨_, _, rfl⟩

/-- The other requests answer data of any length by the pure functions. -/
theorem exec_resp_of_ne_extract {op : Op} (hop : op ≠ .extract) {data : List Byte} {s t : State} (hf : s.Fresh)
    (h : exec (instrOf op data) s = .next t) : t.resp = opResponse s.rom op data := by
  have hresp {u : State} (he : exec (instrOf op data) s = .next u) : t.resp = u.resp := by
    rw [h, Host.Outcome.next.injEq] at he
    rw [he]
  cases op with
  | extract => exact absurd rfl hop
  | unpack => simp [hresp (exec_unpack_eq s data), hf.resp, opResponse]
  | alarm =>
    by_cases hl : data.length = 8
    · simp [hresp (exec_alarm_of_length_eq s hl hf.nrec), hf.resp, opResponse]
    · simp [hresp (exec_alarm_of_length_ne s hl), hf.resp, opResponse, alarmResponse_other s.rom hl]
  | rtAlarm =>
    by_cases hl : data.length / 2 < 62
    · simp [hresp (exec_rtAlarm_of_short s hl), hf.resp, opResponse, rtAlarmResponse_short s.rom hl]
    · simp [hresp (exec_rtAlarm_of_full s (Nat.not_lt.mp hl) hf.nrec), hf.resp, opResponse]

/-- A request's response ends in one `END`, with the warning of R114 and no other flag. -/
theorem exec_request_ends {i : Instr} {s t : State} (hi : i.isRequest = true) (hf : s.Fresh)
    (h : exec i s = .next t) : EndsWithFlags (endFlags (warns i)) t.resp := by
  cases i with
  | extract buf =>
    obtain ⟨st, c, hresp⟩ := exec_extract_resp hf h
    exact ⟨_, st, c, 0#16, hresp, candTokens_isEnd 0 (surviving buf)⟩
  | unpack payload =>
    rw [exec_resp_of_ne_extract (op := .unpack) (by decide) hf h]
    exact unpackResponse_ends payload
  | alarm data =>
    rw [exec_resp_of_ne_extract (op := .alarm) (by decide) hf h]
    exact alarmResponse_ends s.rom data
  | rtAlarm payload =>
    rw [exec_resp_of_ne_extract (op := .rtAlarm) (by decide) hf h]
    exact rtAlarmResponse_ends s.rom payload
  | frameCfg tail => cases hi
  | frameRt tail => cases hi
  | frameUnknown cmd tail => cases hi

/-- A wire-frame row emits no `END`. -/
theorem exec_frame_isEnd {i : Instr} {s t : State} (hi : i.isRequest = false) (hf : s.Fresh)
    (h : exec i s = .next t) : ∀ k ∈ t.resp, k.isEnd = false := by
  obtain ⟨he, hlen⟩ := exec_frame i s hi
  rw [h, Host.Outcome.next.injEq] at he
  subst he
  simp [closed, hlen, hf.resp, candToken_isEnd]

end Sys2Proof.Machine

namespace Sys2Proof.Proofs

open Sys2Proof Sys2Proof.Machine

/-- Settles O30: a request's only `END` is its last token, whose flags are the warning of R114. -/
theorem truncWarnIsExact : Obligations.TruncWarnIsExact := by
  unfold Obligations.TruncWarnIsExact
  constructor
  · intro i s t hf h st c a f hm
    cases hi : i.isRequest with
    | false => cases exec_frame_isEnd hi hf h _ hm
    | true =>
      rw [(exec_request_ends hi hf h).flags_eq hm, ← warns_iff]
      cases warns i <;> simp [endFlags]
  · intro e s hf st c a f hm
    simp only [State.rejectRequest_eq, State.raise_resp, hf.resp, List.nil_append, List.mem_singleton] at hm
    cases hm
    rfl

end Sys2Proof.Proofs
end

section
/-! Every token of a response is legal (spec/30_encoding.md R59 to R62, spec/42_alarm_decoder.md R99,
spec/60_exceptions.md R116). -/

namespace Sys2Proof.Machine

/-- A survivor of at most `BUF_MAX` bytes gives a legal token: its lengths fit 16 bits. -/
theorem candToken_legal (i : Nat) {c : List Byte} (h3 : 3 ≤ c.length) (hb : c.length ≤ Config.bufMax) :
    (candToken i c).legal = true := by
  have hmax := Config.bufMax_le
  have hmod : c.length % 65536 = c.length := Nat.mod_eq_of_lt (by omega)
  by_cases h6 : c.length < 6
  · rw [candToken_short i h6]
    simp [Token.legal, hmod, h3, h6]
  · have h6 := Nat.not_lt.mp h6
    cases hk : kindOf (c.getD 2 0#8) with
    | none =>
      rw [candToken_unknown i h6 hk]
      simp [Token.legal, hmod, h6, hk, -List.getD_eq_getElem?_getD]
    | some k =>
      have hlen : (slice c 3 (c.length - 2)).length = c.length - 5 := by simp [slice]; omega
      rw [candToken_known i h6 hk]
      simp only [Token.legal, hlen, hk, BitVec.toNat_ofNat, Config.minPayloadLen, beq_self_eq_true, Bool.and_true,
        Bool.and_eq_true, decide_eq_true_eq]
      omega

theorem candTokens_legal (i : Nat) {cs : List (List Byte)}
    (h : ∀ c ∈ cs, 3 ≤ c.length ∧ c.length ≤ Config.bufMax) : ∀ t ∈ candTokens i cs, t.legal = true := by
  induction cs generalizing i with
  | nil => simp [candTokens]
  | cons c cs ih =>
    obtain ⟨⟨h3, hb⟩, hcs⟩ := List.forall_mem_cons.mp h
    exact List.forall_mem_cons.mpr ⟨candToken_legal i h3 hb, ih (i + 1) hcs⟩

/-- A record's register identifier and bit are those of a lane, and its case index is the inverted bit (R99). -/
theorem alarmRecord_token_legal (rom : AlarmRom) (r : Fin 4) (b : Fin 16) :
    (alarmRecord rom r b).token.legal = true := by
  rw [alarmRecord_token]
  simp only [Token.legal, BitVec.toNat_ofNat, Bool.and_eq_true, decide_eq_true_eq, Config.nAlarmRegs,
    Config.alarmBits]
  omega

theorem records_legal (rom : AlarmRom) (v : Fin 4 → Reg16) :
    ∀ t ∈ (alarms rom v).map AlarmRecord.token, t.legal = true := by
  intro t ht
  obtain ⟨a, ha, rfl⟩ := List.mem_map.mp ht
  obtain ⟨r, b, -, rfl⟩ := (mem_alarms rom v a).mp ha
  exact alarmRecord_token_legal rom r b

/-- The response of every operation to data that fits the buffer. -/
theorem opResponse_legal (rom : AlarmRom) (op : Op) {data : List Byte} (hb : data.length ≤ Config.bufMax) :
    ∀ t ∈ opResponse rom op data, t.legal = true := by
  have hsnoc {ts : List Token} {e : Token} (hts : ∀ t ∈ ts, t.legal = true) (he : e.legal = true) :
      ∀ t ∈ ts ++ [e], t.legal = true :=
    List.forall_mem_append.mpr ⟨hts, List.forall_mem_singleton.mpr he⟩
  cases op with
  | extract =>
    have hcands : ∀ t ∈ candTokens 0 (surviving data), t.legal = true :=
      candTokens_legal 0 fun c hc => ⟨(surviving_length data c hc).1, (surviving_length data c hc).2.trans hb⟩
    simp only [opResponse, extractResponse]
    split
    · exact hsnoc (ts := []) (by simp) rfl
    · next hs => exact hsnoc (hs ▸ hcands) rfl
  | unpack =>
    refine hsnoc (fun t ht => ?_) rfl
    obtain ⟨k, hk, rfl⟩ := List.mem_mapIdx.mp ht
    rfl
  | alarm =>
    simp only [opResponse, alarmResponse]
    split
    · exact hsnoc (records_legal rom _) rfl
    · exact hsnoc (ts := []) (by simp) rfl
  | rtAlarm =>
    by_cases h : data.length / 2 < 62
    · simp only [opResponse, rtAlarmResponse_short rom h]
      exact hsnoc (ts := []) (by simp) rfl
    · simp only [opResponse, rtAlarmResponse_full rom (Nat.not_lt.mp h)]
      refine hsnoc (List.forall_mem_cons.mpr ⟨rfl, records_legal rom _⟩) ?_
      cases truncWarn (data.length / 2) <;> rfl

end Sys2Proof.Machine
end

section
/-! The invariant: it holds after reset, and every kind of step keeps it (spec/10_state.md R23 to R25,
spec/20_memory.md R33, spec/30_encoding.md R58). -/

namespace Sys2Proof.Machine

/-! ### One `END` behind the rest -/

theorem endsOnce_singleton {t : Token} (h : endsOnce [t]) : t.isEnd = true := by
  obtain ⟨body, last, e, hlast, -⟩ := h
  cases body with
  | nil => cases e; exact hlast
  | cons b bs => simp at e

theorem endsOnce_cons_cons {t u : Token} {ts : List Token} (h : endsOnce (t :: u :: ts)) :
    t.isEnd = false ∧ endsOnce (u :: ts) := by
  obtain ⟨body, last, e, hlast, hbody⟩ := h
  cases body with
  | nil => simp at e
  | cons b bs =>
    simp only [List.cons_append, List.cons.injEq] at e
    obtain ⟨rfl, e⟩ := e
    obtain ⟨ht, hbs⟩ := List.forall_mem_cons.mp hbody
    exact ⟨ht, bs, last, e, hlast, hbs⟩

theorem not_endsOnce_nil : ¬endsOnce [] := by
  rintro ⟨body, last, e, -⟩
  simp at e

/-! ### The host's side and the clearing of the working elements -/

theorem State.Fresh.withHost {s : State} (hf : s.Fresh) (ms : List HostMove) : { s with host := ms }.Fresh :=
  ⟨hf.pos, hf.detPhase, hf.detPend, hf.cand, hf.ncand, hf.nrec, hf.endStatus, hf.endAux, hf.out, hf.resp⟩

/-- The invariant says nothing of the host's moves. -/
theorem State.Inv.withHost {s : State} (h : s.Inv) (ms : List HostMove) : { s with host := ms }.Inv :=
  ⟨h.buffer, h.received, h.stored, h.position, fun hm => (h.fresh hm).withHost ms, h.idle, h.emitting, h.tokens, h.rom⟩

theorem State.Inv.delivered_legal {s : State} (h : s.Inv) : ∀ t ∈ s.delivered, t.legal = true := fun t ht =>
  h.tokens t (by simp [State.produced, ht])

/-- Cleared working elements meet the invariant, with any conforming ROM and any legal tokens consumed. -/
theorem inv_clearWork {s : State} (hrom : AlarmRom.Conforms Config.readText s.rom)
    (hd : ∀ t ∈ s.delivered, t.legal = true) : s.clearWork.Inv where
  buffer := by simp
  received := by simp
  stored := by simp
  position := by simp
  fresh := by simp
  idle := by simp
  emitting := by simp
  tokens := by simpa [State.produced] using hd
  rom := hrom

/-! ### The request channel -/

theorem phaseAfter_cases (last : Bool) : phaseAfter last = .load ∨ phaseAfter last = .scan := by
  cases last <;> simp [phaseAfter]

/-- A state of LOAD or SCAN meets the invariant where its buffer and counts agree and it is fresh. -/
theorem State.Fresh.inv {s : State} (hf : s.Fresh) {last : Bool} (hm : s.mode = phaseAfter last)
    (hbuf : Memory.wf s.dbuf = true)
    (hrec : if s.ovf then s.nrecv = Config.bufMax + 1 else s.nrecv ≤ Config.bufMax)
    (hst : s.dbuf.length = if s.hdrBad then 0 else min s.nrecv Config.bufMax)
    (hd : ∀ t ∈ s.delivered, t.legal = true) (hrom : AlarmRom.Conforms Config.readText s.rom) : s.Inv where
  buffer := hbuf
  received := hrec
  stored := hst
  position := by rw [hf.pos]; exact Nat.zero_le _
  fresh := fun _ => hf
  idle := by intro h; rcases phaseAfter_cases last with hp | hp <;> rw [hm, hp] at h <;> cases h
  emitting := by intro h; rcases phaseAfter_cases last with hp | hp <;> rw [hm, hp] at h <;> cases h
  tokens := by simpa [State.produced, hf.out, hf.resp] using hd
  rom := hrom

theorem State.Inv.acceptHeader {s : State} (h : s.Inv) (x : Xfer) : (s.acceptHeader x).Inv :=
  (gathered_acceptHeader s x).fresh.inv (s.acceptHeader_mode x) (by simp) (by simp) (by simp) h.delivered_legal h.rom

/-- A data byte keeps the buffer and the counts in agreement, in each of the three ways it is met. -/
theorem State.Inv.acceptData {s : State} (h : s.Inv) (hm : s.mode = .load) (x : Xfer) : (s.acceptData x).Inv := by
  have hf := (h.fresh (.inl hm)).acceptData x
  have hbuf := h.buffer
  have hrec := h.received
  have hst := h.stored
  rw [Memory.wf_iff] at hbuf
  by_cases hfull : Config.bufMax ≤ s.nrecv
  · rw [State.acceptData_of_full s x hfull] at hf ⊢
    refine hf.inv rfl h.buffer (by simp) ?_ h.delivered_legal h.rom
    simpa [hfull] using hst
  · have hlt := Nat.not_le.mp hfull
    have hovf : s.ovf = false := by
      cases ho : s.ovf
      · rfl
      · simp only [ho, if_true] at hrec; omega
    cases hb : s.hdrBad
    · rw [hb] at hst
      simp only [Bool.false_eq_true, if_false] at hst
      rw [State.acceptData_of_good s x hlt hb] at hf ⊢
      refine hf.inv rfl ?_ ?_ ?_ h.delivered_legal h.rom
      · rw [Memory.wf_iff]; simp; omega
      · simp [hovf]; omega
      · simp [hb]; omega
    · rw [State.acceptData_of_bad s x hlt hb] at hf ⊢
      refine hf.inv rfl h.buffer ?_ ?_ h.delivered_legal h.rom
      · simp [hovf]; omega
      · simpa [hb] using hst

/-! ### The response channel -/

theorem State.hostTake_produced {s : State} {k : Token} (ho : s.out = some k) : (s.hostTake k).produced = s.produced := by
  simp [State.produced, ho]

/-- Consuming the token in `out` only moves it; nothing is in `out` while a request loads or runs. -/
theorem State.Inv.hostTake {s : State} (h : s.Inv) {k : Token} (ho : s.out = some k) : (s.hostTake k).Inv where
  buffer := h.buffer
  received := h.received
  stored := h.stored
  position := h.position
  fresh := by
    intro hm
    rw [(h.fresh hm).out] at ho
    cases ho
  idle := fun hm => ⟨(h.idle hm).1, by simp⟩
  emitting := fun hm => ⟨(h.emitting hm).1, by simp⟩
  tokens := by rw [State.hostTake_produced ho]; exact h.tokens
  rom := h.rom

/-- The oldest token goes to `out`: the `END` only as the last, which ends the phase. -/
theorem State.Inv.drain {s : State} (h : s.Inv) (hm : s.mode = .emitEnd) : s.drain.Inv := by
  obtain ⟨hends, -⟩ := h.emitting hm
  have htokens : ∀ t ∈ s.drain.produced, t.legal = true := by rw [(drain_keeps s).1]; exact h.tokens
  rcases s.drain_cases with ⟨_, -, e⟩ | ⟨-, hr, -⟩ | ⟨t, -, hr, e⟩ | ⟨t, u, ts, -, hr, e⟩
  · rw [e]; exact h
  · rw [hr] at hends
    exact absurd hends not_endsOnce_nil
  · rw [hr] at hends
    have hend := endsOnce_singleton hends
    rw [e] at htokens ⊢
    exact ⟨h.buffer, h.received, h.stored, h.position, by simp, by simp [hend], by simp, htokens, h.rom⟩
  · rw [hr] at hends
    obtain ⟨hend, hrest⟩ := endsOnce_cons_cons hends
    rw [e] at htokens ⊢
    exact ⟨h.buffer, h.received, h.stored, h.position, by simp [hm], by simp [hm], by simp [hend, hrest], htokens, h.rom⟩

/-! ### SCAN -/

/-- The end of SCAN keeps the invariant where the response is whole and legal and the walk has stayed within the data. -/
theorem State.Inv.answered {s t : State} (h : s.Inv) (hm : s.mode = .scan) (hk : Keeps { s with nrec := t.nrec } t)
    (hmode : t.mode = .emitEnd) (hends : endsOnce t.resp) (hlegal : ∀ k ∈ t.resp, k.legal = true)
    (hpos : t.pos ≤ t.dbuf.length) : t.Inv := by
  obtain ⟨-, hbad, hbuf, hnrecv, hovf, -, hout, hrom, -, hdel, -⟩ := hk
  rw [(h.fresh (.inr hm)).out] at hout
  refine ⟨?_, ?_, ?_, hpos, ?_, ?_, ?_, ?_, ?_⟩
  · rw [hbuf]; exact h.buffer
  · rw [hovf, hnrecv]; exact h.received
  · rw [hbuf, hbad, hnrecv]; exact h.stored
  · simp [hmode]
  · simp [hmode]
  · simp [hends, hout]
  · rw [State.produced, hdel, hout]
    exact List.forall_mem_append.mpr ⟨by simpa using h.delivered_legal, hlegal⟩
  · rw [hrom]; exact h.rom

theorem State.Inv.rejectRequest {s : State} (h : s.Inv) (hm : s.mode = .scan) (e : RequestError) :
    (s.rejectRequest e).Inv := by
  have hresp : (s.rejectRequest e).resp = [.endTok (rejectStatus e) 0#16 0#16 0#8] := by
    simp [(h.fresh (.inr hm)).resp]
  refine h.answered hm (keeps_endWith s _ _ _ _) rfl ?_ ?_ h.position
  · rw [hresp]
    exact ⟨[], _, rfl, rfl, by simp⟩
  · rw [hresp, List.forall_mem_singleton]
    cases e <;> rfl

/-- A request walks its data at most once (R17, R135). -/
theorem exec_request_pos {s t : State} {op : Op} {data : List Byte} (hf : s.Fresh) (hb : data.length ≤ Config.bufMax)
    (h : exec (instrOf op data) s = .next t) : t.pos ≤ data.length := by
  have hpos {u : State} (he : exec (instrOf op data) s = .next u) : t.pos = u.pos := by
    rw [h, Host.Outcome.next.injEq] at he
    rw [he]
  cases op with
  | extract =>
    obtain ⟨u, hu, hup, -⟩ := exec_extract_core hf hb
    rw [hpos hu, hup]
  | unpack => simp [hpos (exec_unpack_eq s data), hf.pos]
  | alarm =>
    by_cases hl : data.length = 8
    · simp [hpos (exec_alarm_of_length_eq s hl hf.nrec), hf.pos, hl]
    · simp [hpos (exec_alarm_of_length_ne s hl), hf.pos]
  | rtAlarm =>
    by_cases hl : data.length / 2 < 62
    · simp [hpos (exec_rtAlarm_of_short s hl), hf.pos]
    · simp [hpos (exec_rtAlarm_of_full s (Nat.not_lt.mp hl) hf.nrec), hf.pos]

theorem instrOf_isRequest (op : Op) (data : List Byte) : (instrOf op data).isRequest = true := by
  cases op <;> rfl

theorem State.Inv.of_exec {s t : State} (h : s.Inv) (hm : s.mode = .scan) {i : Instr} (hi : fetch s = .ok i)
    (he : exec i s = .next t) : t.Inv := by
  have hf := h.fresh (.inr hm)
  have hb := (Memory.wf_iff _).mp h.buffer
  obtain ⟨-, -, rfl⟩ := fetch_ok hi
  obtain ⟨u, hu, hans⟩ := exec_request_answers s.op hf hb
  obtain rfl : t = u := by simpa [he] using hu
  have hk := exec_keeps he
  refine h.answered hm hk hans.mode (exec_request_ends (instrOf_isRequest _ _) hf he).endsOnce ?_ ?_
  · rw [hans.resp]
    exact opResponse_legal s.rom s.op hb
  · rw [hk.dbuf]
    exact exec_request_pos hf hb he

/-! ### The whole step -/

theorem State.Inv.of_blockStep {s t : State} (h : s.Inv) (hs : blockStep s = .next t) : t.Inv := by
  rcases blockStep_cases hs with ⟨-, rfl⟩ | ⟨hm, e, -, rfl⟩ | ⟨hm, i, hi, he⟩ | ⟨hm, rfl⟩
  · exact h
  · exact h.rejectRequest hm e
  · exact h.of_exec hm hi he
  · exact h.drain hm

theorem State.Inv.of_step {s t : State} (h : s.Inv) (hs : step s = .next t) : t.Inv := by
  rcases step_cases hs with ⟨x, ms, -, ha, rfl⟩ | ⟨ms, -, rfl⟩ | ⟨k, ms, -, ho, rfl⟩ | ⟨ms, -, hb⟩ | ⟨-, hb⟩
  · rcases accepts_cases ha with ⟨hm, -⟩ | hm
    · rw [acceptXfer_idle (s := { s with host := ms }) hm]
      exact (h.withHost ms).acceptHeader x
    · rw [acceptXfer_load (s := { s with host := ms }) hm]
      exact (h.withHost ms).acceptData hm x
  · exact inv_clearWork (s := { s with host := ms }) h.rom h.delivered_legal
  · exact (h.withHost ms).hostTake ho
  · exact (h.withHost ms).of_blockStep hb
  · exact h.of_blockStep hb

end Sys2Proof.Machine

namespace Sys2Proof.Proofs

open Sys2Proof Sys2Proof.Machine

/-- Settles O45: the reset state is a cleared one with the ROM as built. -/
theorem resetMeetsInvariant : Obligations.ResetMeetsInvariant :=
  inv_clearWork (s := State.reset) Config.alarmMsg_conforms (by simp [State.reset])

/-- Settles O46, one kind of step at a time (`State.Inv.of_step`). -/
theorem stepKeepsInvariant : Obligations.StepKeepsInvariant := by
  unfold Obligations.StepKeepsInvariant
  intro s t h hs
  exact h.of_step hs

end Sys2Proof.Proofs
end

section
/-! What every step keeps: the ROM, always (spec/10_state.md R22, spec/20_memory.md R49), and the tokens in their order,
but for a reset (spec/10_state.md R25). -/

namespace Sys2Proof.Machine

/-! ### The ROM -/

theorem acceptXfer_rom (s : State) (x : Xfer) : (s.acceptXfer x).rom = s.rom := by
  unfold State.acceptXfer
  split
  · exact (acceptData_keeps s x).2.1
  · rfl
  · rfl
  · rfl

theorem blockStep_rom {s t : State} (h : blockStep s = .next t) : t.rom = s.rom := by
  rcases blockStep_cases h with ⟨-, rfl⟩ | ⟨-, e, -, rfl⟩ | ⟨-, i, -, he⟩ | ⟨-, rfl⟩
  · rfl
  · rfl
  · exact (exec_keeps he).rom
  · exact (drain_keeps s).2.2.1

/-! ### The tokens -/

theorem prefix_of_eq {ts us : List Token} (h : us = ts) : ts <+: us := h ▸ List.prefix_rfl

theorem produced_prefix_of_resp {s t : State} (hd : t.delivered = s.delivered) (ho : t.out = s.out)
    (hr : s.resp <+: t.resp) : s.produced <+: t.produced := by
  rw [State.produced, State.produced, hd, ho]
  exact (List.prefix_append_right_inj _).mpr hr

/-- A step of the block delivers nothing, and produces behind what it has produced. -/
theorem blockStep_produced {s t : State} (h : blockStep s = .next t) :
    s.produced <+: t.produced ∧ t.delivered = s.delivered := by
  rcases blockStep_cases h with ⟨-, rfl⟩ | ⟨-, e, -, rfl⟩ | ⟨-, i, -, he⟩ | ⟨-, rfl⟩
  · exact ⟨List.prefix_rfl, rfl⟩
  · exact ⟨produced_prefix_of_resp rfl rfl (List.prefix_append _ _), rfl⟩
  · have hk := exec_keeps he
    exact ⟨produced_prefix_of_resp hk.delivered hk.out hk.resp, hk.delivered⟩
  · obtain ⟨hp, hd, -⟩ := drain_keeps s
    exact ⟨prefix_of_eq hp, hd⟩

/-- Taking a byte drops no token: a header is taken only where none is left. -/
theorem State.Inv.acceptXfer_produced {s : State} (h : s.Inv) (ha : s.accepts = true) (x : Xfer) :
    (s.acceptXfer x).produced = s.produced ∧ (s.acceptXfer x).delivered = s.delivered := by
  rcases accepts_cases ha with ⟨hm, ho⟩ | hm
  · rw [acceptXfer_idle hm]
    exact ⟨by simp [State.produced, ho, (h.idle hm).1], rfl⟩
  · obtain ⟨-, -, ho, hr, -, hd⟩ := acceptData_keeps s x
    rw [acceptXfer_load hm]
    exact ⟨by rw [State.produced, hd, ho, hr, State.produced], hd⟩

end Sys2Proof.Machine

namespace Sys2Proof.Proofs

open Sys2Proof Sys2Proof.Machine

/-- Settles O44, one kind of step at a time. -/
theorem romIsNeverWritten : Obligations.RomIsNeverWritten := by
  unfold Obligations.RomIsNeverWritten
  intro s t h
  rcases step_cases h with ⟨x, ms, -, -, rfl⟩ | ⟨ms, -, rfl⟩ | ⟨k, ms, -, -, rfl⟩ | ⟨ms, -, hb⟩ | ⟨-, hb⟩
  · exact acceptXfer_rom { s with host := ms } x
  · rfl
  · rfl
  · exact blockStep_rom (s := { s with host := ms }) hb
  · exact blockStep_rom hb

/-- Settles O42, one kind of step at a time. -/
theorem tokensAreNeverLost : Obligations.TokensAreNeverLost := by
  unfold Obligations.TokensAreNeverLost
  intro s t hinv h hreset
  rcases step_cases h with ⟨x, ms, -, ha, rfl⟩ | ⟨ms, hh, -⟩ | ⟨k, ms, -, ho, rfl⟩ | ⟨ms, -, hb⟩ | ⟨-, hb⟩
  · obtain ⟨hp, hd⟩ := (hinv.withHost ms).acceptXfer_produced ha x
    exact ⟨prefix_of_eq hp, prefix_of_eq hd⟩
  · simp [hh] at hreset
  · rw [State.hostTake_produced (s := { s with host := ms }) ho]
    exact ⟨List.prefix_rfl, List.prefix_append _ _⟩
  · obtain ⟨hp, hd⟩ := blockStep_produced hb
    exact ⟨hp, prefix_of_eq hd⟩
  · obtain ⟨hp, hd⟩ := blockStep_produced hb
    exact ⟨hp, prefix_of_eq hd⟩

end Sys2Proof.Proofs
end

section
/-! Single steps, each with its exact next state: the request channel, SCAN and the response channel
(spec/10_state.md R24, R25, spec/60_exceptions.md R119 to R122, R135). -/

namespace Sys2Proof.Machine

/-! ### The header byte -/

/-- Bits [7:2] of a byte are zero exactly below 4. -/
theorem headerReserved_ne_zero (h : Byte) : (headerReserved h != 0#6) = decide (4 ≤ h.toNat) := by
  have hlt := h.isLt
  have e : headerReserved h = 0#6 ↔ h.toNat < 4 := by
    rw [← BitVec.toNat_inj, headerReserved, BitVec.extractLsb'_toNat, BitVec.toNat_zero, Nat.shiftRight_eq_div_pow]
    omega
  rw [Bool.eq_iff_iff, bne_iff_ne, ne_eq, e, decide_eq_true_iff, Nat.not_lt]

theorem decodeRequest_ok {h : Byte} {data : List Byte} {i : Instr} (hi : decodeRequest h data = .ok i) :
    headerReserved h = 0#6 ∧ data.length ≤ Config.bufMax ∧ i = instrOf (headerOp h) data := by
  by_cases hr : headerReserved h = 0#6
  · by_cases hl : Config.bufMax < data.length
    · rw [decodeRequest_of_overflow hr hl] at hi
      cases hi
    · rw [decodeRequest_of_fits hr (Nat.not_lt.mp hl)] at hi
      cases hi
      exact ⟨hr, Nat.not_lt.mp hl, rfl⟩
  · rw [decodeRequest_of_reserved hr] at hi
    cases hi

/-! ### Steps of the block -/

theorem blockStep_of_fetch_ok {s : State} {i : Instr} (hm : s.mode = .scan) (hi : fetch s = .ok i) :
    blockStep s = exec i s := by simp [blockStep, hm, hi]

theorem blockStep_of_fetch_error {s : State} {e : RequestError} (hm : s.mode = .scan) (he : fetch s = .error e) :
    blockStep s = .next (s.rejectRequest e) := by simp [blockStep, hm, he]

theorem blockStep_of_emitEnd {s : State} (hm : s.mode = .emitEnd) : blockStep s = .next s.drain := by
  simp [blockStep, hm]

/-- Where the block waits for the host it holds: for a byte in IDLE and LOAD, for `out` to be emptied in EMIT_END. -/
theorem blockStep_holds {s : State} (h : s.mode = .idle ∨ s.mode = .load ∨ s.mode = .emitEnd ∧ s.out ≠ none) :
    blockStep s = .next s := by
  rcases h with hm | hm | ⟨hm, ho⟩
  · simp [blockStep, hm]
  · simp [blockStep, hm]
  · obtain ⟨t, ht⟩ := Option.ne_none_iff_exists'.mp ho
    rw [blockStep_of_emitEnd hm, State.drain_of_full s t ht]

/-! ### Hosts whose next move cannot complete first -/

theorem blockStepsFrom_nil {s : State} (hh : s.host = []) : s.blockStepsFrom s := by
  simp [State.blockStepsFrom, hh]

theorem blockStepsFrom_wait {s : State} {ms : List HostMove} (hh : s.host = .wait :: ms) :
    s.blockStepsFrom { s with host := ms } := by simp [State.blockStepsFrom, hh]

theorem blockStepsFrom_send {s : State} {x : Xfer} {ms : List HostMove} (hh : s.host = .send x :: ms)
    (ha : s.accepts = false) : s.blockStepsFrom s := by simp [State.blockStepsFrom, hh, ha]

theorem blockStepsFrom_take {s : State} {ms : List HostMove} (hh : s.host = .take :: ms) (ho : s.out = none) :
    s.blockStepsFrom s := by simp [State.blockStepsFrom, hh, ho]

/-- Where the block takes no byte and has no token, every move but a wait and a reset waits for it. -/
theorem blockStepsFrom_self {s : State} (ha : s.accepts = false) (ho : s.out = none)
    (hw : s.host.head? ≠ some .wait) (hr : s.host.head? ≠ some .reset) : s.blockStepsFrom s := by
  rcases hh : s.host with _ | ⟨m, ms⟩
  · exact blockStepsFrom_nil hh
  · cases m with
    | send x => exact blockStepsFrom_send hh ha
    | take => exact blockStepsFrom_take hh ho
    | reset => simp [hh] at hr
    | wait => simp [hh] at hw

theorem accepts_of_scan {s : State} (hm : s.mode = .scan) : s.accepts = false := by simp [State.accepts, hm]

theorem accepts_of_emitEnd {s : State} (hm : s.mode = .emitEnd) : s.accepts = false := by simp [State.accepts, hm]

theorem accepts_of_idle_full {s : State} {t : Token} (hm : s.mode = .idle) (ho : s.out = some t) :
    s.accepts = false := by simp [State.accepts, hm, ho]

/-! ### A data byte, in one equation -/

theorem State.acceptData_eq (s : State) (x : Xfer) : s.acceptData x = { s with
    mode := if x.last then .scan else .load
    ovf := s.ovf || decide (Config.bufMax ≤ s.nrecv)
    nrecv := if Config.bufMax ≤ s.nrecv then Config.bufMax + 1 else s.nrecv + 1
    dbuf := if Config.bufMax ≤ s.nrecv ∨ s.hdrBad = true then s.dbuf else s.dbuf ++ [x.byte] } := by
  by_cases hfull : Config.bufMax ≤ s.nrecv
  · simp [State.acceptData_of_full s x hfull, hfull, phaseAfter]
  · have hlt := Nat.not_le.mp hfull
    cases hb : s.hdrBad
    · simp [State.acceptData_of_good s x hlt hb, hfull, hb, phaseAfter]
    · simp [State.acceptData_of_bad s x hlt hb, hfull, hb, phaseAfter]

end Sys2Proof.Machine

namespace Sys2Proof.Proofs

open Sys2Proof Sys2Proof.Machine

/-! ### Reset and the request channel -/

/-- Settles O1, element by element of R23's table. -/
theorem resetLeavesTableValues : Obligations.ResetLeavesTableValues :=
  ⟨rfl, rfl, rfl, rfl, rfl, rfl, rfl, rfl, rfl, rfl, rfl, rfl, rfl, rfl, rfl, rfl⟩

/-- Settles O3: the step is `acceptHeader`, whose test of the reserved bits is a bound on the byte. -/
theorem headerStartsRequest : Obligations.HeaderStartsRequest := by
  unfold Obligations.HeaderStartsRequest
  intro s x ms hm ho hh
  rw [step_send_header hm ho hh, State.acceptHeader, headerReserved_ne_zero]
  rfl

/-- Settles O4: the step is `acceptData`. -/
theorem dataByteIsLoaded : Obligations.DataByteIsLoaded := by
  unfold Obligations.DataByteIsLoaded
  intro s x ms hm hh
  rw [step_send_data hm hh, State.acceptData_eq]

/-- Settles O5: what the run of the sends has gathered (`run_sends`) is fetched as its bytes decode. -/
theorem sentRequestIsGathered : Obligations.SentRequestIsGathered := by
  unfold Obligations.SentRequestIsGathered
  intro s h data rest ⟨hm, ho, _⟩ hh
  obtain ⟨t, ht, htm, g, hth, htr, htd⟩ := run_sends hm ho hh
  refine ⟨t, ht, htm, g.fresh, g.fetch_eq, fun hr hl => ?_, hth, htr, htd⟩
  simp [g.dbuf, g.hdrBad, hr, List.take_of_length_le hl]

/-! ### SCAN -/

/-- Settles O6: the gathered request is fetched as its bytes decode, and no move completes before the block's step. -/
theorem stepRunsDecodedRequest : Obligations.StepRunsDecodedRequest := by
  unfold Obligations.StepRunsDecodedRequest
  intro s h data i hm hop hbad hovf hbuf hi
  obtain ⟨hr, hl, rfl⟩ := decodeRequest_ok hi
  have hbad : s.hdrBad = false := by simpa [hr] using hbad
  have hovf : s.ovf = false := by simpa [Nat.not_lt.mpr hl] using hovf
  have hfetch : fetch s = .ok (instrOf (headerOp h) data) := by simp [fetch, hbad, hovf, hop, hbuf hovf hbad]
  have hstep (hs : s.blockStepsFrom s) : step s = exec (instrOf (headerOp h) data) s :=
    (step_eq_blockStep hs).trans (blockStep_of_fetch_ok hm hfetch)
  refine ⟨fun hh => hstep (blockStepsFrom_nil hh), fun ms hh => ?_,
    fun x ms hh => hstep (blockStepsFrom_send hh (accepts_of_scan hm)),
    fun ms ho hh => hstep (blockStepsFrom_take hh ho)⟩
  rw [step_eq_blockStep (blockStepsFrom_wait hh)]
  exact blockStep_of_fetch_ok (s := { s with host := ms }) hm hfetch

/-- Settles O7: the reserved bits come before the overflow in `fetch`, and either reason ends the request. -/
theorem badRequestsAreAnswered : Obligations.BadRequestsAreAnswered := by
  unfold Obligations.BadRequestsAreAnswered
  intro s u hm h
  have hu := blockStepsFrom_eq h
  have hum : u.mode = .scan := by rw [hu]; exact hm
  have hresp : u.resp = s.resp := by rw [hu]
  have hreject {e : RequestError} (he : fetch s = .error e) : step s = .next (u.rejectRequest e) := by
    have hfu : fetch u = .error e := by rw [hu]; exact he
    exact (step_eq_blockStep h).trans (blockStep_of_fetch_error hum hfu)
  constructor
  · intro hb
    rw [hreject (e := .reservedHeader) (by simp [fetch, hb]), ← hresp]
    rfl
  · intro hb ho
    rw [hreject (e := .overflow) (by simp [fetch, hb, ho]), ← hresp]
    rfl

/-! ### The response channel -/

/-- Settles O39: the step is `drain`, in the state without the wait where there is one. -/
theorem emitMovesOldestToken : Obligations.EmitMovesOldestToken := by
  unfold Obligations.EmitMovesOldestToken
  intro s t ts hm ho hr
  constructor
  · intro hw hreset
    rw [step_eq_blockStep (blockStepsFrom_self (accepts_of_emitEnd hm) ho hw hreset), blockStep_of_emitEnd hm,
      State.drain_of_cons hm ho hr]
  · intro ms hh
    rw [step_eq_blockStep (blockStepsFrom_wait hh), blockStep_of_emitEnd (s := { s with host := ms }) hm,
      State.drain_of_cons (s := { s with host := ms }) hm ho hr]

/-- Settles O40: the step is `hostTake`. -/
theorem takeDeliversToken : Obligations.TakeDeliversToken := by
  unfold Obligations.TakeDeliversToken
  intro s t ms ho hh
  rw [step_take_of_full ho hh]
  rfl

/-- Settles O41: no move but the wait completes, and the block holds. -/
theorem blockHoldsForHost : Obligations.BlockHoldsForHost := by
  unfold Obligations.BlockHoldsForHost
  intro s
  have hfull {t : Token} (ho : s.out = some t) : s.out ≠ none := by simp [ho]
  refine ⟨fun t ho hm hh => ?_, fun t x ms ho hm hh => ?_, fun hm hh => ?_, fun ms ho hm hh => ?_, fun ms hm hh => ?_⟩
  · exact (step_eq_blockStep (blockStepsFrom_nil hh)).trans (blockStep_holds (.inr (.inr ⟨hm, hfull ho⟩)))
  · rcases hm with hm | hm
    · exact (step_eq_blockStep (blockStepsFrom_send hh (accepts_of_emitEnd hm))).trans
        (blockStep_holds (.inr (.inr ⟨hm, hfull ho⟩)))
    · exact (step_eq_blockStep (blockStepsFrom_send hh (accepts_of_idle_full hm ho))).trans (blockStep_holds (.inl hm))
  · exact (step_eq_blockStep (blockStepsFrom_nil hh)).trans (blockStep_holds (hm.imp_right .inl))
  · exact (step_eq_blockStep (blockStepsFrom_take hh ho)).trans (blockStep_holds (hm.imp_right .inl))
  · exact (step_eq_blockStep (blockStepsFrom_wait hh)).trans (blockStep_holds (s := { s with host := ms }) hm)

end Sys2Proof.Proofs
end

section
/-! Nothing of earlier requests can be seen (spec/10_state.md R15, R29): two states that agree in what a request to come
depends on go on step by step together and deliver the same tokens. -/

namespace Sys2Proof.Machine

/-- Two states that cannot be told apart by what they deliver from now on: the phase, what is to be emitted, the ROM and
the host agree, and so does everything of a request in progress but the tokens delivered before. -/
structure Alike (s t : State) : Prop where
  mode : t.mode = s.mode
  out : t.out = s.out
  resp : t.resp = s.resp
  rom : t.rom = s.rom
  host : t.host = s.host
  request : s.mode = .load ∨ s.mode = .scan → t = { s with delivered := t.delivered }

/-- Outside LOAD and SCAN no working element but `out` and the response matters. -/
theorem Alike.of_settled {s t : State} (hl : s.mode ≠ .load) (hc : s.mode ≠ .scan) (hm : t.mode = s.mode)
    (ho : t.out = s.out) (hr : t.resp = s.resp) (hrom : t.rom = s.rom) (hh : t.host = s.host) : Alike s t :=
  ⟨hm, ho, hr, hrom, hh, fun h => (h.elim hl hc).elim⟩

/-- States that differ only in the tokens delivered before. -/
theorem Alike.withDelivered (s : State) (d : List Token) : Alike s { s with delivered := d } :=
  ⟨rfl, rfl, rfl, rfl, rfl, fun _ => rfl⟩

theorem Alike.of_eq {s t : State} (h : t = { s with delivered := t.delivered }) : Alike s t := by
  rw [h]
  exact Alike.withDelivered s _

theorem Alike.withHost {s t : State} (h : Alike s t) (ms : List HostMove) :
    Alike { s with host := ms } { t with host := ms } :=
  ⟨h.mode, h.out, h.resp, h.rom, rfl, fun hm => by rw [h.request hm]⟩

/-! ### The host's moves -/

theorem State.accepts_congr {s t : State} (h : Alike s t) : t.accepts = s.accepts := by
  simp only [State.accepts, h.mode, h.out]

theorem Alike.clearWork {s t : State} (h : Alike s t) : Alike s.clearWork t.clearWork :=
  Alike.of_eq (by simp only [State.clearWork, h.rom, h.host])

theorem Alike.acceptHeader {s t : State} (h : Alike s t) (x : Xfer) : Alike (s.acceptHeader x) (t.acceptHeader x) :=
  Alike.of_eq (by simp only [State.acceptHeader, State.clearWork, h.rom, h.host])

theorem acceptData_withDelivered (s : State) (d : List Token) (x : Xfer) :
    { s with delivered := d }.acceptData x = { s.acceptData x with delivered := d } := by
  unfold State.acceptData
  split
  · rfl
  · split <;> rfl

theorem Alike.acceptXfer {s t : State} (h : Alike s t) (ha : s.accepts = true) (x : Xfer) :
    Alike (s.acceptXfer x) (t.acceptXfer x) := by
  rcases accepts_cases ha with ⟨hm, -⟩ | hm
  · rw [acceptXfer_idle hm, acceptXfer_idle (h.mode.trans hm)]
    exact h.acceptHeader x
  · rw [acceptXfer_load hm, acceptXfer_load (h.mode.trans hm), h.request (.inl hm), acceptData_withDelivered s t.delivered]
    exact Alike.withDelivered _ _

theorem acceptXfer_delivered (s : State) (x : Xfer) : (s.acceptXfer x).delivered = s.delivered := by
  unfold State.acceptXfer
  split
  · obtain ⟨-, -, -, -, -, hd⟩ := acceptData_keeps s x
    exact hd
  · rfl
  · rfl
  · rfl

/-! ### The block -/

/-- The response SCAN gives to what has been gathered. -/
def scanResponse (s : State) : List Token :=
  match fetch s with
  | .ok _ => opResponse s.rom s.op s.dbuf
  | .error e => [.endTok (rejectStatus e) 0#16 0#16 0#8]

theorem State.Inv.scan_answers {s : State} (h : s.Inv) (hm : s.mode = .scan) :
    ∃ t, blockStep s = .next t ∧ Answers s t (scanResponse s) := by
  have hf := h.fresh (.inr hm)
  unfold scanResponse
  cases hi : fetch s with
  | error e => exact ⟨_, blockStep_of_fetch_error hm hi, rfl, by simp [hf.resp], rfl, rfl, rfl, rfl⟩
  | ok i =>
    rw [blockStep_of_fetch_ok hm hi]
    obtain ⟨-, -, rfl⟩ := fetch_ok hi
    exact exec_request_answers s.op hf ((Memory.wf_iff _).mp h.buffer)

theorem State.Inv.resp_ne_nil {s : State} (h : s.Inv) (hm : s.mode = .emitEnd) : s.resp ≠ [] := by
  intro hr
  obtain ⟨hends, -⟩ := h.emitting hm
  exact not_endsOnce_nil (hr ▸ hends)

theorem Alike.drain {s t : State} (h : Alike s t) (hs : s.Inv) (hm : s.mode = .emitEnd) : Alike s.drain t.drain := by
  obtain ⟨k, ks, hr⟩ := List.exists_cons_of_ne_nil (hs.resp_ne_nil hm)
  cases ho : s.out with
  | some j => rwa [State.drain_of_full s j ho, State.drain_of_full t j (h.out.trans ho)]
  | none =>
    rw [State.drain_of_cons hm ho hr, State.drain_of_cons (h.mode.trans hm) (h.out.trans ho) (h.resp.trans hr)]
    refine Alike.of_settled ?_ ?_ rfl rfl rfl h.rom h.host
    · split <;> simp
    · split <;> simp

theorem blockStep_alike {s t : State} (h : Alike s t) (hs : s.Inv) (ht : t.Inv) :
    ∃ s' t', blockStep s = .next s' ∧ blockStep t = .next t' ∧ Alike s' t' := by
  cases hm : s.mode with
  | idle => exact ⟨s, t, blockStep_holds (.inl hm), blockStep_holds (.inl (h.mode.trans hm)), h⟩
  | load => exact ⟨s, t, blockStep_holds (.inr (.inl hm)), blockStep_holds (.inr (.inl (h.mode.trans hm))), h⟩
  | scan =>
    obtain ⟨s', hs', hsa⟩ := hs.scan_answers hm
    obtain ⟨t', ht', hta⟩ := ht.scan_answers (h.mode.trans hm)
    have hresp : scanResponse t = scanResponse s := by
      rw [h.request (.inr hm)]
      rfl
    refine ⟨s', t', hs', ht', Alike.of_settled ?_ ?_ ?_ ?_ ?_ ?_ ?_⟩
    · simp [hsa.mode]
    · simp [hsa.mode]
    · rw [hsa.mode, hta.mode]
    · rw [hsa.out, hta.out, h.out]
    · rw [hsa.resp, hta.resp, hresp]
    · rw [hsa.rom, hta.rom, h.rom]
    · rw [hsa.host, hta.host, h.host]
  | emitEnd => exact ⟨_, _, blockStep_of_emitEnd hm, blockStep_of_emitEnd (h.mode.trans hm), h.drain hs hm⟩

/-! ### The whole step, and runs -/

/-- One step from `s` and one from `t` lead to states that are alike and deliver the same tokens. -/
def StepsAlike (s t : State) : Prop :=
  ∃ s' t' d, step s = .next s' ∧ step t = .next t' ∧ Alike s' t' ∧ s'.delivered = s.delivered ++ d ∧
    t'.delivered = t.delivered ++ d

/-- Where the step is the block's in both, nothing is delivered. -/
theorem stepsAlike_of_block {s t u v : State} (hsu : s.blockStepsFrom u) (htv : t.blockStepsFrom v) (h : Alike u v)
    (hu : u.Inv) (hv : v.Inv) : StepsAlike s t := by
  obtain ⟨u', v', hu', hv', h'⟩ := blockStep_alike h hu hv
  have hdu : u.delivered = s.delivered := by rw [blockStepsFrom_eq hsu]
  have hdv : v.delivered = t.delivered := by rw [blockStepsFrom_eq htv]
  refine ⟨u', v', [], (step_eq_blockStep hsu).trans hu', (step_eq_blockStep htv).trans hv', h', ?_, ?_⟩
  · simp [(blockStep_produced hu').2, hdu]
  · simp [(blockStep_produced hv').2, hdv]

theorem step_reset {s : State} {ms : List HostMove} (hh : s.host = .reset :: ms) :
    step s = .next { s with host := ms }.clearWork := by
  unfold step
  rw [hh]
  rfl

theorem Alike.stepsAlike {s t : State} (h : Alike s t) (hs : s.Inv) (ht : t.Inv) : StepsAlike s t := by
  have hth := h.host
  rcases hh : s.host with _ | ⟨m, ms⟩
  · rw [hh] at hth
    exact stepsAlike_of_block (blockStepsFrom_nil hh) (blockStepsFrom_nil hth) h hs ht
  · rw [hh] at hth
    cases m with
    | send x =>
      have hta := State.accepts_congr h
      cases ha : s.accepts with
      | false =>
        rw [ha] at hta
        exact stepsAlike_of_block (blockStepsFrom_send hh ha) (blockStepsFrom_send hth hta) h hs ht
      | true =>
        refine ⟨_, _, [], step_send hh ha, step_send hth (hta.trans ha), (h.withHost ms).acceptXfer ha x, ?_, ?_⟩
        · simp [acceptXfer_delivered]
        · simp [acceptXfer_delivered]
    | take =>
      cases ho : s.out with
      | none =>
        have hto := h.out.trans ho
        exact stepsAlike_of_block (blockStepsFrom_take hh ho) (blockStepsFrom_take hth hto) h hs ht
      | some k =>
        refine ⟨_, _, [k], step_take_of_full ho hh, step_take_of_full (h.out.trans ho) hth, ?_, rfl, rfl⟩
        have hmode (hm : s.mode = .load ∨ s.mode = .scan) : False := by
          rw [(hs.fresh hm).out] at ho
          cases ho
        exact Alike.of_settled (fun hm => hmode (.inl hm)) (fun hm => hmode (.inr hm)) h.mode rfl h.resp h.rom rfl
    | reset => exact ⟨_, _, [], step_reset hh, step_reset hth, (h.withHost ms).clearWork, by simp, by simp⟩
    | wait =>
      exact stepsAlike_of_block (blockStepsFrom_wait hh) (blockStepsFrom_wait hth) (h.withHost ms) (hs.withHost ms)
        (ht.withHost ms)

theorem Alike.runs {s t : State} (h : Alike s t) (hs : s.Inv) (ht : t.Inv) (k : Nat) :
    ∃ s' t' d, run k s = .next s' ∧ run k t = .next t' ∧ s'.delivered = s.delivered ++ d ∧
      t'.delivered = t.delivered ++ d := by
  induction k generalizing s t with
  | zero => exact ⟨s, t, [], rfl, rfl, by simp, by simp⟩
  | succ k ih =>
    obtain ⟨u, v, d, hu, hv, huv, hud, hvd⟩ := h.stepsAlike hs ht
    obtain ⟨s', t', e, hs', ht', hse, hte⟩ := ih huv (hs.of_step hu) (ht.of_step hv)
    refine ⟨s', t', d ++ e, (run_succ hu k).trans hs', (run_succ hv k).trans ht', ?_, ?_⟩
    · rw [hse, hud, List.append_assoc]
    · rw [hte, hvd, List.append_assoc]

end Sys2Proof.Machine

namespace Sys2Proof.Proofs

open Sys2Proof Sys2Proof.Machine

/-- Settles O49: quiet states with one ROM and one host are alike, and alike states go on alike (`Alike.runs`). -/
theorem historyIsInvisible : Obligations.HistoryIsInvisible := by
  unfold Obligations.HistoryIsInvisible
  intro s t hs ht ⟨hsm, hso, hsr⟩ ⟨htm, hto, htr⟩ hrom hhost k
  have h : Alike s t := Alike.of_settled (by simp [hsm]) (by simp [hsm]) (htm.trans hsm.symm) (hto.trans hso.symm)
    (htr.trans hsr.symm) hrom.symm hhost.symm
  exact h.runs hs ht k

end Sys2Proof.Proofs
end

section
/-! No step stops (spec/20_memory.md R34, spec/42_alarm_decoder.md R104, spec/60_exceptions.md R117): the block answers
in every phase, and the host's moves answer whatever the state. -/

namespace Sys2Proof.Machine

/-- Only SCAN reads, and the invariant puts it at the start of a buffer that fits, where every read is in range. -/
theorem State.Inv.blockStep_answers {s : State} (h : s.Inv) : ∃ t, blockStep s = .next t := by
  cases hm : s.mode with
  | idle => exact ⟨s, blockStep_holds (.inl hm)⟩
  | load => exact ⟨s, blockStep_holds (.inr (.inl hm))⟩
  | scan =>
    obtain ⟨t, ht, -⟩ := h.scan_answers hm
    exact ⟨t, ht⟩
  | emitEnd => exact ⟨s.drain, blockStep_of_emitEnd hm⟩

/-- Where the step is the block's, it starts from a state that meets the invariant too: the host is no part of it. -/
theorem State.Inv.of_blockStepsFrom {s u : State} (h : s.Inv) (hu : s.blockStepsFrom u) : u.Inv := by
  rw [blockStepsFrom_eq hu]
  exact h.withHost u.host

theorem State.Inv.step_answers_of_block {s u : State} (h : s.Inv) (hu : s.blockStepsFrom u) :
    ∃ t, step s = .next t := by
  rw [step_eq_blockStep hu]
  exact (h.of_blockStepsFrom hu).blockStep_answers

end Sys2Proof.Machine

namespace Sys2Proof.Proofs

open Sys2Proof Sys2Proof.Machine

/-- Settles O47, by the host's next move: it completes at once, or it leaves the step to the block. -/
theorem noStepStops : Obligations.NoStepStops := by
  unfold Obligations.NoStepStops
  intro s h
  rcases hh : s.host with _ | ⟨m, ms⟩
  · exact h.step_answers_of_block (blockStepsFrom_nil hh)
  · cases m with
    | send x =>
      cases ha : s.accepts with
      | false => exact h.step_answers_of_block (blockStepsFrom_send hh ha)
      | true => exact ⟨_, step_send hh ha⟩
    | take =>
      cases ho : s.out with
      | none => exact h.step_answers_of_block (blockStepsFrom_take hh ho)
      | some k => exact ⟨_, step_take_of_full ho hh⟩
    | reset => exact ⟨_, step_reset hh⟩
    | wait => exact h.step_answers_of_block (blockStepsFrom_wait hh)

end Sys2Proof.Proofs
end

section
/-! The encodings of both places (spec/30_encoding.md R51 to R57, R66, R67): a header byte and its operation, and a
candidate and its row, read in both directions. -/

namespace Sys2Proof.Machine

/-! ### Requests -/

@[simp] theorem headerReserved_header (op : Op) : headerReserved op.header = 0#6 := by cases op <;> rfl

@[simp] theorem headerOp_header (op : Op) : headerOp op.header = op := by cases op <;> rfl

/-- Below 4 there is one header byte for each operation (R66). -/
theorem header_headerOp {h : Byte} (hr : headerReserved h = 0#6) : (headerOp h).header = h := by
  have hlt : ¬4 ≤ h.toNat := by simpa [hr] using headerReserved_ne_zero h
  have hcases : h = 0#8 ∨ h = 1#8 ∨ h = 2#8 ∨ h = 3#8 := by bv_omega
  rcases hcases with rfl | rfl | rfl | rfl <;> rfl

@[simp] theorem encode_instrOf (op : Op) (data : List Byte) : encode (instrOf op data) = op.header :: data := by
  cases op <;> rfl

@[simp] theorem instrOf_space (op : Op) (data : List Byte) : (instrOf op data).space = .request := by cases op <;> rfl

/-- R56, R57: data that fits is a legal operand of every operation but ALARM, which wants 8 bytes. -/
theorem instrOf_wellFormed (op : Op) {data : List Byte} (hl : data.length ≤ Config.bufMax) :
    (instrOf op data).wellFormed = true ∨ ∃ d, instrOf op data = .alarm d ∧ d.length ≠ 8 := by
  cases op with
  | extract => exact .inl (decide_eq_true hl)
  | unpack => exact .inl (decide_eq_true hl)
  | alarm =>
    by_cases h8 : data.length = 8
    · exact .inl (decide_eq_true h8)
    · exact .inr ⟨data, rfl, h8⟩
  | rtAlarm => exact .inl (decide_eq_true hl)

theorem decodeRequest_header (op : Op) {data : List Byte} (hl : data.length ≤ Config.bufMax) :
    decodeRequest op.header data = .ok (instrOf op data) := by
  rw [decodeRequest_of_fits (headerReserved_header op) hl, headerOp_header]

theorem decodeIn_request (op : Op) {data : List Byte} (hl : data.length ≤ Config.bufMax) :
    decodeIn .request (op.header :: data) = some (instrOf op data) := by
  rw [decodeIn, decodeRequest_header op hl]
  rfl

/-! ### Wire frames -/

/-- The three rows of a command byte (R53). -/
theorem frameOf_cases (cmd : Byte) (tail : List Byte) :
    (cmd = Config.cmdCfg ∧ frameOf cmd tail = .frameCfg tail) ∨
    (cmd = Config.cmdRt ∧ frameOf cmd tail = .frameRt tail) ∨
    (cmd ≠ Config.cmdCfg ∧ cmd ≠ Config.cmdRt ∧ frameOf cmd tail = .frameUnknown cmd tail) := by
  unfold frameOf
  split
  · next hc => exact .inl ⟨hc, rfl⟩
  · next hc =>
    split
    · next hr => exact .inr (.inl ⟨hr, rfl⟩)
    · next hr => exact .inr (.inr ⟨hc, hr, rfl⟩)

@[simp] theorem encode_frameOf (cmd : Byte) (tail : List Byte) : encode (frameOf cmd tail) = wireFrame cmd tail := by
  rcases frameOf_cases cmd tail with ⟨rfl, e⟩ | ⟨rfl, e⟩ | ⟨-, -, e⟩ <;> rw [e] <;> rfl

@[simp] theorem frameOf_space (cmd : Byte) (tail : List Byte) : (frameOf cmd tail).space = .frame := by
  rcases frameOf_cases cmd tail with ⟨-, e⟩ | ⟨-, e⟩ | ⟨-, -, e⟩ <;> rw [e] <;> rfl

@[simp] theorem frameOf_wellFormed (cmd : Byte) (tail : List Byte) :
    (frameOf cmd tail).wellFormed = frameBody cmd tail := by
  rcases frameOf_cases cmd tail with ⟨rfl, e⟩ | ⟨rfl, e⟩ | ⟨hc, hr, e⟩
  · rw [e, Instr.wellFormed]
  · rw [e, Instr.wellFormed]
  · rw [e, Instr.wellFormed, bne_iff_ne.mpr hc, bne_iff_ne.mpr hr, Bool.true_and, Bool.true_and]

theorem frameUnknown_wellFormed {cmd : Byte} {tail : List Byte} (h : (Instr.frameUnknown cmd tail).wellFormed = true) :
    frameBody cmd tail = true ∧ frameOf cmd tail = .frameUnknown cmd tail := by
  simp only [Instr.wellFormed, Bool.and_eq_true, bne_iff_ne] at h
  obtain ⟨⟨hc, hr⟩, hb⟩ := h
  exact ⟨hb, by rw [frameOf, if_neg hc, if_neg hr]⟩

theorem frameBody_iff (cmd : Byte) (tail : List Byte) :
    frameBody cmd tail = true ↔ hasMarker (cmd :: tail) = false ∧ ¬Config.bufMax < tail.length + Config.hdrLen := by
  simp [frameBody]

/-- The bytes of a frame are exactly those of R51: marker, command byte and a tail without a marker that fits. -/
theorem decodeFrame_ok_iff {bytes : List Byte} {i : Instr} :
    decodeFrame bytes = .ok i ↔
      ∃ cmd tail, bytes = wireFrame cmd tail ∧ frameBody cmd tail = true ∧ i = frameOf cmd tail := by
  constructor
  · intro h
    unfold decodeFrame at h
    split at h
    · next a b rest =>
      split at h
      · next hmarker =>
        obtain ⟨rfl, rfl⟩ := hmarker
        split at h
        · next cmd tail =>
          split at h
          · cases h
          · next hm =>
            split at h
            · cases h
            · next hl =>
              cases h
              exact ⟨cmd, tail, rfl, (frameBody_iff cmd tail).mpr ⟨Bool.eq_false_iff.mpr hm, hl⟩, rfl⟩
        · cases h
      · cases h
    · cases h
  · rintro ⟨cmd, tail, rfl, hb, rfl⟩
    obtain ⟨hm, hl⟩ := (frameBody_iff cmd tail).mp hb
    simp only [decodeFrame, wireFrame, and_self, if_true, hm, hl, if_false, Bool.false_eq_true]

theorem decodeIn_frame {cmd : Byte} {tail : List Byte} (hb : frameBody cmd tail = true) :
    decodeIn .frame (wireFrame cmd tail) = some (frameOf cmd tail) := by
  rw [decodeIn, decodeFrame_ok_iff.mpr ⟨cmd, tail, rfl, hb, rfl⟩]
  rfl

/-! ### Either place -/

theorem toOption_eq_some {ε α : Type} {e : Except ε α} {a : α} (h : e.toOption = some a) : e = .ok a := by
  cases e <;> cases h
  rfl

/-- What decodes is a request of an operation with data that fits, or a frame with a legal body. -/
theorem decodeIn_cases {space : Space} {bytes : List Byte} {i : Instr} (h : decodeIn space bytes = some i) :
    (space = .request ∧ ∃ op data, data.length ≤ Config.bufMax ∧ bytes = op.header :: data ∧ i = instrOf op data) ∨
    (space = .frame ∧ ∃ cmd tail, frameBody cmd tail = true ∧ bytes = wireFrame cmd tail ∧ i = frameOf cmd tail) := by
  cases space with
  | request =>
    cases bytes with
    | nil => cases h
    | cons b data =>
      obtain ⟨hr, hl, hi⟩ := decodeRequest_ok (toOption_eq_some h)
      exact .inl ⟨rfl, headerOp b, data, hl, by rw [header_headerOp hr], hi⟩
  | frame =>
    obtain ⟨cmd, tail, hbytes, hb, hi⟩ := decodeFrame_ok_iff.mp (toOption_eq_some h)
    exact .inr ⟨rfl, cmd, tail, hb, hbytes, hi⟩

end Sys2Proof.Machine

namespace Sys2Proof.Proofs

open Sys2Proof Sys2Proof.Machine

/-- Settles O33, row by row: a request by its header byte, a frame by its command byte. -/
theorem decodeEncodeRoundTrip : Obligations.DecodeEncodeRoundTrip := by
  unfold Obligations.DecodeEncodeRoundTrip
  intro i h
  cases i with
  | extract buf => exact decodeIn_request .extract (of_decide_eq_true h)
  | unpack payload => exact decodeIn_request .unpack (of_decide_eq_true h)
  | alarm data =>
    have h8 : data.length = 8 := of_decide_eq_true h
    have hmax := Config.bufMax_ge
    exact decodeIn_request .alarm (by omega)
  | rtAlarm payload => exact decodeIn_request .rtAlarm (of_decide_eq_true h)
  | frameCfg tail => exact decodeIn_frame h
  | frameRt tail => exact decodeIn_frame h
  | frameUnknown cmd tail =>
    obtain ⟨hb, e⟩ := frameUnknown_wellFormed h
    rw [← e, frameOf_space, encode_frameOf, decodeIn_frame hb]

/-- Settles O34, in the two places (`decodeIn_cases`). -/
theorem encodeDecodeRoundTrip : Obligations.EncodeDecodeRoundTrip := by
  unfold Obligations.EncodeDecodeRoundTrip
  intro space bytes i h
  rcases decodeIn_cases h with ⟨rfl, op, data, hl, rfl, rfl⟩ | ⟨rfl, cmd, tail, hb, rfl, rfl⟩
  · exact ⟨encode_instrOf op data, instrOf_space op data, instrOf_wellFormed op hl⟩
  · exact ⟨encode_frameOf cmd tail, frameOf_space cmd tail, .inl (by rw [frameOf_wellFormed, hb])⟩

/-- Settles O35: bits [7:2] are zero exactly below 4, where each byte is the header of its operation. -/
theorem headerByteSelectsOperation : Obligations.HeaderByteSelectsOperation := by
  unfold Obligations.HeaderByteSelectsOperation
  intro h data hl
  refine ⟨fun h4 => ?_, ?_, ?_, ?_, ?_⟩
  · have hr : headerReserved h ≠ 0#6 := by simpa [h4] using headerReserved_ne_zero h
    exact decodeRequest_of_reserved hr data
  · rintro rfl
    exact decodeRequest_header .extract hl
  · rintro rfl
    exact decodeRequest_header .unpack hl
  · rintro rfl
    exact decodeRequest_header .alarm hl
  · rintro rfl
    exact decodeRequest_header .rtAlarm hl

/-- Settles O36: seven of the words are the encodings of what they decode to, and the header with bit 2 set is
rejected. -/
theorem writtenWordsDecode : Obligations.WrittenWordsDecode := by
  unfold Obligations.WrittenWordsDecode
  have hfits {n : Nat} (h : n ≤ 129) : n ≤ Config.bufMax := h.trans Config.bufMax_ge
  have hbody {cmd : Byte} {tail : List Byte} (hm : hasMarker (cmd :: tail) = false) (hl : tail.length ≤ 126) :
      frameBody cmd tail = true := (frameBody_iff cmd tail).mpr ⟨hm, Nat.not_lt.mpr (hfits (Nat.add_le_add_right hl 3))⟩
  refine ⟨decodeIn_request .extract (hfits (by decide)), decodeIn_request .unpack (hfits (by decide)),
    decodeIn_request .alarm (hfits (by decide)), decodeIn_request .rtAlarm (hfits (by decide)), ?_,
    decodeIn_frame (hbody (by decide) (by decide)), decodeIn_frame (hbody (by decide) (by decide)),
    decodeIn_frame (hbody (by decide) (by decide))⟩
  rw [decodeIn, decodeRequest_of_reserved (by decide)]
  rfl

end Sys2Proof.Proofs
end

section
/-! The bytes of a token (spec/30_encoding.md R58 to R62, spec/20_memory.md R39): 16-bit fields and codes read back, and
with them each kind of token. -/

namespace Sys2Proof.Machine

/-! ### Fields and codes -/

/-- The two bytes of a 16-bit field, by division. -/
theorem be16Bytes_eq (v : Reg16) :
    be16Bytes v = [BitVec.ofNat 8 (v.toNat / 256), BitVec.ofNat 8 (v.toNat % 256)] := by
  have hhi : v.extractLsb' 8 8 = BitVec.ofNat 8 (v.toNat / 256) := by
    rw [BitVec.extractLsb', Nat.shiftRight_eq_div_pow]
  have hlo : v.extractLsb' 0 8 = BitVec.ofNat 8 (v.toNat % 256) := by
    rw [BitVec.extractLsb', Nat.shiftRight_zero]
    exact BitVec.eq_of_toNat_eq (by simp)
  rw [be16Bytes, hhi, hlo]

/-- A 16-bit field is read back from its two bytes. -/
@[simp] theorem be16_extract (v : Reg16) : be16 (v.extractLsb' 8 8) (v.extractLsb' 0 8) = v :=
  (BitVec.extractLsb'_append_extractLsb'_eq_extractLsb' (w := 16) (x := v) rfl).trans BitVec.extractLsb'_eq_self

@[simp] theorem Status.ofCode_code (s : Status) : Status.ofCode s.code = some s := by cases s <;> rfl

@[simp] theorem FrameKind.ofCode_code (k : FrameKind) : FrameKind.ofCode k.code = some k := by cases k <;> rfl

/-! ### Tokens -/

/-- R59: a legal FRAME says the length of its payload, which is the token's only field of variable length. -/
theorem plen_of_legal {idx plen : Reg16} {cmd x y : Byte} {kind : FrameKind} {payload : List Byte}
    (h : (Token.frame idx cmd kind plen payload x y).legal = true) : plen.toNat = payload.length := by
  simp only [Token.legal, Bool.and_eq_true, decide_eq_true_eq] at h
  obtain ⟨⟨hlen, -⟩, -⟩ := h
  exact hlen

/-- The tag says how many bytes a token has, but for FRAME, whose `plen` says it. -/
theorem readToken_bytes {t : Token} (h : t.legal = true) (behind : List Byte) :
    readToken (t.bytes ++ behind) = some (t, behind) := by
  cases t with
  | frame idx cmd kind plen payload x y => simp [Token.bytes, readToken, be16Bytes, plen_of_legal h]
  | candErr idx status cmd clen => simp [Token.bytes, readToken, be16Bytes]
  | reg idx value => simp [Token.bytes, readToken, be16Bytes]
  | alarmRaw v1 v2 v3 v4 => simp [Token.bytes, readToken, be16Bytes]
  | alarmRec registerId bitIndex caseIndex msg => simp [Token.bytes, readToken, be16Bytes]
  | endTok status count aux flags => simp [Token.bytes, readToken, be16Bytes]

end Sys2Proof.Machine

namespace Sys2Proof.Proofs

open Sys2Proof Sys2Proof.Machine

/-- Settles O37, one kind of token at a time. -/
theorem tokensReadBack : Obligations.TokensReadBack := by
  unfold Obligations.TokensReadBack
  intro t behind h
  exact readToken_bytes h behind

/-- Settles O38: the fields stand in order, and `be16Bytes_eq` gives the two bytes of each 16-bit one. -/
theorem tokensAreLaidOut : Obligations.TokensAreLaidOut := by
  unfold Obligations.TokensAreLaidOut
  refine ⟨?_, ?_, ?_, ?_, ?_, ?_, rfl, rfl⟩
  · intro idx cmd kind plen payload x y
    simp [Token.bytes, be16Bytes_eq]
  · intro idx st cmd clen
    simp [Token.bytes, be16Bytes_eq]
  · intro idx v
    simp [Token.bytes, be16Bytes_eq]
  · intro v1 v2 v3 v4
    simp [Token.bytes, be16Bytes_eq]
  · intro r b c m
    simp [Token.bytes, be16Bytes_eq]
  · intro st c a f
    simp [Token.bytes, be16Bytes_eq]

end Sys2Proof.Proofs
end

section
/-! Every instruction completes from fresh working elements (spec/30_encoding.md R58, spec/40_frame_extractor.md R83):
a request in EMIT_END with its `END`, a wire frame with its one token. -/

namespace Sys2Proof.Machine

/-- A request completes on data of any length: its detector and its reads meet nothing out of range. -/
theorem exec_request_completes {i : Instr} (hi : i.isRequest = true) {s : State} (hf : s.Fresh) :
    ∃ t, exec i s = .next t ∧ t.mode = .emitEnd := by
  cases i with
  | extract buf =>
    simp only [exec, execExtract, scanBytes_all buf s hf.pos, bind, Except.bind, finishScan_ok, outcomeOf_ok]
    split
    · exact ⟨_, rfl, rfl⟩
    · exact ⟨_, rfl, rfl⟩
  | unpack payload => exact ⟨_, exec_unpack_eq s payload, rfl⟩
  | alarm data =>
    by_cases h8 : data.length = 8
    · exact ⟨_, exec_alarm_of_length_eq s h8 hf.nrec, rfl⟩
    · exact ⟨_, exec_alarm_of_length_ne s h8, rfl⟩
  | rtAlarm payload =>
    by_cases hl : payload.length / 2 < 62
    · exact ⟨_, exec_rtAlarm_of_short s hl, rfl⟩
    · exact ⟨_, exec_rtAlarm_of_full s (Nat.not_lt.mp hl) hf.nrec, rfl⟩
  | frameCfg tail => cases hi
  | frameRt tail => cases hi
  | frameUnknown cmd tail => cases hi

/-- A wire-frame row keeps the mode and emits one token, which is no `END`. -/
theorem exec_frame_completes {i : Instr} (hi : i.isRequest = false) {s : State} (hf : s.Fresh) :
    ∃ t, exec i s = .next t ∧ t.mode = s.mode ∧ ∃ tok, t.resp = [tok] ∧ tok.isEnd = false := by
  obtain ⟨he, hlen⟩ := exec_frame i s hi
  refine ⟨_, he, ?_, candToken s.ncand.toNat (encode i), ?_, candToken_isEnd _ _⟩
  · rw [closed, if_pos hlen, State.emit_mode]
  · rw [closed, if_pos hlen, State.emit_resp, hf.resp, List.nil_append]

end Sys2Proof.Machine

namespace Sys2Proof.Proofs

open Sys2Proof Sys2Proof.Machine

/-- Settles O31: both kinds of instruction complete, and a request's response ends once (`exec_request_ends`). -/
theorem oneEndPerRequest : Obligations.OneEndPerRequest := by
  unfold Obligations.OneEndPerRequest
  intro i s hf
  cases hi : i.isRequest with
  | true =>
    obtain ⟨t, ht, hm⟩ := exec_request_completes hi hf
    exact ⟨t, ht, fun _ => ⟨hm, (exec_request_ends hi hf ht).endsOnce⟩, nofun⟩
  | false =>
    obtain ⟨t, ht, hframe⟩ := exec_frame_completes hi hf
    exact ⟨t, ht, nofun, fun _ => hframe⟩

end Sys2Proof.Proofs
end

section
/-! The split of a buffer at its markers (spec/40_frame_extractor.md R73 to R75): every candidate is a marker with no
other marker behind it, and such candidates laid end to end, behind bytes without a marker, split into themselves. -/

namespace Sys2Proof.Machine

/-! ### The marker list -/

theorem markerAt_iff (buf : List Byte) (p : Nat) :
    markerAt buf p = true ↔ buf[p]? = some 0xD2#8 ∧ buf[p + 1]? = some 0x03#8 := by
  simp [markerAt]

/-- R73: the marker list is complete. -/
theorem mem_markers (buf : List Byte) (p : Nat) :
    p ∈ markers buf ↔ buf[p]? = some 0xD2#8 ∧ buf[p + 1]? = some 0x03#8 := by
  rw [markers, List.mem_filter, List.mem_range, markerAt_iff, and_iff_right_iff_imp]
  exact fun h => (List.getElem?_eq_some_iff.mp h.1).1

/-- R74: a marker's second byte is not the first one of another marker. -/
theorem markers_gap {buf : List Byte} {p q : Nat} (hp : p ∈ markers buf) (hq : q ∈ markers buf) (h : p < q) :
    p + 2 ≤ q := by
  have hne : q ≠ p + 1 := by
    rintro rfl
    have hbyte := ((mem_markers buf p).mp hp).2.symm.trans ((mem_markers buf (p + 1)).mp hq).1
    exact absurd hbyte (by decide)
  omega

/-! ### Markers at the front of a byte string -/

theorem hasMarker_cons (a : Byte) (l : List Byte) :
    hasMarker (a :: l) = true ↔ (a = 0xD2#8 ∧ l.head? = some 0x03#8) ∨ hasMarker l = true := by
  cases l <;> simp [hasMarker]

theorem hasMarker_cons_eq_false {a : Byte} {l : List Byte} :
    hasMarker (a :: l) = false ↔ ¬(a = 0xD2#8 ∧ l.head? = some 0x03#8) ∧ hasMarker l = false := by
  rw [← Bool.not_eq_true, hasMarker_cons, not_or, Bool.not_eq_true]

/-- Bytes without a marker, and none formed where they meet the rest, go before the first marker (R75). -/
theorem split_append {pre buf : List Byte} (hpre : hasMarker pre = false)
    (hmeet : ¬(pre.getLast? = some 0xD2#8 ∧ buf.head? = some 0x03#8)) :
    splitAtMarkers (pre ++ buf) = (pre ++ (splitAtMarkers buf).1, (splitAtMarkers buf).2) := by
  induction pre with
  | nil => rfl
  | cons a pre ih =>
    obtain ⟨hfront, hrest⟩ := hasMarker_cons_eq_false.mp hpre
    cases pre with
    | nil => exact split_cons_other (by simpa using hmeet)
    | cons b pre =>
      rw [List.getLast?_cons_cons] at hmeet
      rw [List.cons_append, split_cons_other (by simpa using hfront), ih hrest hmeet]
      rfl

/-! ### What a candidate is -/

/-- The bytes are a marker with no marker behind it (R75, R89). -/
def IsCandidate (c : List Byte) : Prop := ∃ body, c = 0xD2#8 :: 0x03#8 :: body ∧ hasMarker body = false

/-- No marker is left before the first one, and each candidate has its own alone. -/
theorem split_isCandidate (buf : List Byte) :
    hasMarker (splitAtMarkers buf).1 = false ∧ ∀ c ∈ (splitAtMarkers buf).2, IsCandidate c := by
  induction buf with
  | nil => exact ⟨rfl, nofun⟩
  | cons a rest ih =>
    obtain ⟨hpre, hcands⟩ := ih
    by_cases h : a = 0xD2#8 ∧ rest.head? = some 0x03#8
    · obtain ⟨rfl, hhead⟩ := h
      obtain ⟨body, rfl⟩ := List.head?_eq_some_iff.mp hhead
      rw [split_cons_other fun hm => absurd hm.1 (by decide)] at hpre hcands
      rw [split_cons_marker]
      exact ⟨rfl, List.forall_mem_cons.mpr ⟨⟨_, rfl, (hasMarker_cons_eq_false.mp hpre).2⟩, hcands⟩⟩
    · rw [split_cons_other h]
      refine ⟨hasMarker_cons_eq_false.mpr ⟨fun ⟨ha, hb⟩ => h ⟨ha, ?_⟩, hpre⟩, hcands⟩
      rw [← split_flatten rest, List.head?_append, hb, Option.some_or]

/-- Candidates laid end to end come apart again (R75, R89). -/
theorem split_flatten_of_candidates {cs : List (List Byte)} (h : ∀ c ∈ cs, IsCandidate c) :
    splitAtMarkers cs.flatten = ([], cs) := by
  induction cs with
  | nil => rfl
  | cons c cs ih =>
    obtain ⟨⟨body, rfl, hbody⟩, hcs⟩ := List.forall_mem_cons.mp h
    have hmeet : cs.flatten.head? ≠ some 0x03#8 := by
      cases cs with
      | nil => simp
      | cons d ds =>
        obtain ⟨e, rfl, -⟩ := hcs d (List.mem_cons_self ..)
        simp
    rw [List.flatten_cons, List.cons_append, List.cons_append, split_cons_marker,
      split_append hbody (fun hm => hmeet hm.2), ih hcs, List.append_nil]

/-! ### The surviving candidates -/

theorem surviving_eq_split (buf : List Byte) : surviving buf = survivors (splitAtMarkers buf).2 := by
  rw [← candidates_eq_split, surviving]

theorem surviving_append {pre buf : List Byte} (hpre : hasMarker pre = false)
    (hmeet : ¬(pre.getLast? = some 0xD2#8 ∧ buf.head? = some 0x03#8)) : surviving (pre ++ buf) = surviving buf := by
  rw [surviving_eq_split, split_append hpre hmeet, ← surviving_eq_split]

theorem isCandidate_wireFrame {cmd : Byte} {tail : List Byte} (h : hasMarker (cmd :: tail) = false) :
    IsCandidate (wireFrame cmd tail) := ⟨cmd :: tail, rfl, h⟩

/-- Candidates of at least three bytes laid end to end all survive. -/
theorem surviving_flatten {cs : List (List Byte)} (h : ∀ c ∈ cs, IsCandidate c ∧ 3 ≤ c.length) :
    surviving cs.flatten = cs := by
  rw [surviving_eq_split, split_flatten_of_candidates fun c hc => (h c hc).1]
  exact List.filter_eq_self.mpr fun c hc => decide_eq_true (h c hc).2

/-- A survivor is the encoding of a well-formed wire frame (R51, R81). -/
theorem surviving_eq_wireFrame {buf c : List Byte} (hb : buf.length ≤ Config.bufMax) (hc : c ∈ surviving buf) :
    ∃ cmd tail, c = wireFrame cmd tail ∧ frameBody cmd tail = true := by
  obtain ⟨hmin, hmax⟩ := surviving_length buf c hc
  have hsplit : c ∈ (splitAtMarkers buf).2 := by
    rw [surviving_eq_split] at hc
    exact List.mem_of_mem_filter hc
  obtain ⟨body, rfl, hbody⟩ := (split_isCandidate buf).2 c hsplit
  cases body with
  | nil => simp at hmin
  | cons cmd tail =>
    refine ⟨cmd, tail, rfl, (frameBody_iff cmd tail).mpr ⟨hbody, ?_⟩⟩
    simp only [List.length_cons, Config.hdrLen, Config.markerLen] at hmax ⊢
    omega

end Sys2Proof.Machine

namespace Sys2Proof.Proofs

open Sys2Proof Sys2Proof.Machine

/-- Settles O11: the list is `List.range` filtered, and two markers are never neighbours (`markers_gap`). -/
theorem markersNeverOverlap : Obligations.MarkersNeverOverlap := by
  unfold Obligations.MarkersNeverOverlap
  intro buf
  have hincreasing : (markers buf).Pairwise (· < ·) := List.pairwise_lt_range.filter (markerAt buf)
  exact ⟨hincreasing.imp_of_mem markers_gap, mem_markers buf⟩

end Sys2Proof.Proofs
end

section
/-! The wire-frame rows (spec/40_frame_extractor.md R79 to R82, R88): the exact next state, with the token of the
candidate written out. -/

namespace Sys2Proof.Machine

/-- A wire-frame row takes the next index and emits its candidate's token; nothing else changes. -/
theorem exec_frame_eq {i : Instr} (hi : i.isRequest = false) (s : State) :
    exec i s = .next { s with
      ncand := s.ncand + 1#16, resp := s.resp ++ [candToken s.ncand.toNat (encode i)] } := by
  obtain ⟨he, hlen⟩ := exec_frame i s hi
  rw [he, closed, if_pos hlen, State.emit]

/-! ### The bytes of a candidate with a payload and a suffix (R51, R79) -/

section
variable (cmd x y : Byte) (payload : List Byte)

theorem wireFrame_getD_cmd (tail : List Byte) : (wireFrame cmd tail).getD 2 0#8 = cmd := rfl

theorem wireFrame_suffix_length : (wireFrame cmd (payload ++ [x, y])).length = payload.length + 5 := by
  simp [wireFrame]

theorem wireFrame_suffix_slice : slice (wireFrame cmd (payload ++ [x, y])) 3 (payload.length + 3) = payload := by
  simp [slice, wireFrame]

theorem wireFrame_suffix_getD :
    (wireFrame cmd (payload ++ [x, y])).getD (payload.length + 3) 0#8 = x ∧
    (wireFrame cmd (payload ++ [x, y])).getD (payload.length + 3 + 1) 0#8 = y := by
  simp [wireFrame]

end

/-! ### The token of such a candidate -/

/-- R81, R82, R88: a known command byte gives FRAME with the payload and the suffix as they stand. -/
theorem candToken_wireFrame_known (i : Nat) {cmd x y : Byte} {kind : FrameKind} {payload : List Byte}
    (hp : payload ≠ []) (hk : kindOf cmd = some kind) :
    candToken i (wireFrame cmd (payload ++ [x, y])) =
      .frame (BitVec.ofNat 16 i) cmd kind (BitVec.ofNat 16 payload.length) payload x y := by
  have hpos := List.length_pos_iff.mpr hp
  have hlen := wireFrame_suffix_length cmd x y payload
  obtain ⟨hx, hy⟩ := wireFrame_suffix_getD cmd x y payload
  have htok := candToken_known i (show 6 ≤ (wireFrame cmd (payload ++ [x, y])).length by omega) hk
  rwa [hlen, Nat.add_sub_cancel, show payload.length + 5 - 2 = payload.length + 3 by omega, hx, hy,
    wireFrame_suffix_slice, wireFrame_getD_cmd] at htok

/-- R81: any other command byte gives `UnknownCommand`. -/
theorem candToken_wireFrame_unknown (i : Nat) {cmd x y : Byte} {payload : List Byte}
    (hp : payload ≠ []) (hk : kindOf cmd = none) :
    candToken i (wireFrame cmd (payload ++ [x, y])) =
      .candErr (BitVec.ofNat 16 i) .unknownCommand cmd (BitVec.ofNat 16 (payload.length + 5)) := by
  have hpos := List.length_pos_iff.mpr hp
  have hlen := wireFrame_suffix_length cmd x y payload
  have htok := candToken_unknown i (show 6 ≤ (wireFrame cmd (payload ++ [x, y])).length by omega) hk
  rwa [hlen, wireFrame_getD_cmd] at htok

/-- R80: fewer than three bytes behind the command byte hold no payload, whatever that byte is. -/
theorem candToken_wireFrame_short (i : Nat) (cmd : Byte) {tail : List Byte} (h : tail.length < 3) :
    candToken i (wireFrame cmd tail) =
      .candErr (BitVec.ofNat 16 i) .emptyPayload cmd (BitVec.ofNat 16 (tail.length + 3)) :=
  candToken_short i (show tail.length + 3 < 6 by omega)

end Sys2Proof.Machine

namespace Sys2Proof.Proofs

open Sys2Proof Sys2Proof.Machine

/-- Settles O15: the exact next state of a row (`exec_frame_eq`) with the token of its command byte. -/
theorem framesAreClassified : Obligations.FramesAreClassified := by
  unfold Obligations.FramesAreClassified
  intro s payload x y cmd hp
  have hknown {i : Instr} {b : Byte} {kind : FrameKind} (hi : i.isRequest = false)
      (he : encode i = wireFrame b (payload ++ [x, y])) (hk : kindOf b = some kind) :
      exec i s = .next { s with
        ncand := s.ncand + 1#16
        resp := s.resp ++ [.frame s.ncand b kind (BitVec.ofNat 16 payload.length) payload x y] } := by
    rw [exec_frame_eq hi, he, candToken_wireFrame_known _ hp hk, BitVec.ofNat_toNat, BitVec.setWidth_eq]
  refine ⟨hknown rfl rfl rfl, hknown rfl rfl rfl, fun hc hr => ?_⟩
  have hk : kindOf cmd = none := by rw [kindOf, if_neg hc, if_neg hr]
  rw [exec_frame_eq rfl, encode, candToken_wireFrame_unknown _ hp hk, BitVec.ofNat_toNat, BitVec.setWidth_eq]

/-- Settles O16: the three rows answer alike, since the length is tested before the command byte (R80, R123). -/
theorem shortFramesAreEmpty : Obligations.ShortFramesAreEmpty := by
  unfold Obligations.ShortFramesAreEmpty
  intro s tail cmd h
  have hrow {i : Instr} {b : Byte} (hi : i.isRequest = false) (he : encode i = wireFrame b tail) :
      exec i s = .next { s with
        ncand := s.ncand + 1#16
        resp := s.resp ++ [.candErr s.ncand .emptyPayload b (BitVec.ofNat 16 (tail.length + 3))] } := by
    rw [exec_frame_eq hi, he, candToken_wireFrame_short _ b h, BitVec.ofNat_toNat, BitVec.setWidth_eq]
  exact ⟨hrow rfl rfl, hrow rfl rfl, hrow rfl rfl⟩

end Sys2Proof.Proofs
end

section
/-! EXTRACT and its response (spec/40_frame_extractor.md R72, R75 to R85): the response depends on the survivors alone,
which the split of the buffer gives. -/

namespace Sys2Proof.Machine

/-! ### The response -/

theorem extractResponse_congr {buf buf' : List Byte} (h : surviving buf = surviving buf') :
    extractResponse buf = extractResponse buf' := by
  unfold extractResponse
  rw [h]

/-- R72 where a candidate survives. -/
theorem extractResponse_of_ne_nil {buf : List Byte} (h : surviving buf ≠ []) :
    extractResponse buf =
      candTokens 0 (surviving buf) ++ [.endTok .ok (BitVec.ofNat 16 (surviving buf).length) 0#16 0#8] := by
  obtain ⟨c, cs, hs⟩ := List.exists_cons_of_ne_nil h
  rw [extractResponse, hs]

theorem exec_extract_response {s : State} {buf : List Byte} (hf : s.Fresh) (hb : buf.length ≤ Config.bufMax) :
    ∃ t, exec (.extract buf) s = .next t ∧ t.resp = extractResponse buf := by
  obtain ⟨t, ht, hans⟩ := exec_request_answers .extract hf hb
  exact ⟨t, ht, hans.resp⟩

/-- R83: the number of a survivor is the `idx` of its token, whichever of the two it is. -/
theorem candToken_idx (i : Nat) (c : List Byte) :
    (∃ cmd kind plen payload x y, candToken i c = .frame (BitVec.ofNat 16 i) cmd kind plen payload x y) ∨
    (∃ st cmd clen, candToken i c = .candErr (BitVec.ofNat 16 i) st cmd clen) := by
  by_cases h : c.length < 6
  · exact .inr ⟨_, _, _, candToken_short i h⟩
  · cases hk : kindOf (c.getD 2 0#8) with
    | none => exact .inr ⟨_, _, _, candToken_unknown i (Nat.not_lt.mp h) hk⟩
    | some kind => exact .inl ⟨_, _, _, _, _, _, candToken_known i (Nat.not_lt.mp h) hk⟩

/-- Survivors are too few for a 16-bit count to wrap (R84). -/
theorem toNat_ofNat_of_le_surviving_length {buf : List Byte} (hb : buf.length ≤ Config.bufMax) {k : Nat}
    (hk : k ≤ (surviving buf).length) : (BitVec.ofNat 16 k).toNat = k := by
  have hlen : 3 * (surviving buf).length ≤ buf.length := survivors_length buf
  have hmax := Config.bufMax_le
  rw [BitVec.toNat_ofNat]
  exact Nat.mod_eq_of_lt (by omega)

/-! ### The frame rows one after another -/

/-- Frames run one after another close their candidates, and no decode error ends the run early. -/
theorem runFrames_eq {cs : List (List Byte)}
    (h : ∀ c ∈ cs, ∃ cmd tail, c = wireFrame cmd tail ∧ frameBody cmd tail = true) (s : State) :
    runFrames cs s = .next (closeAll cs s) := by
  induction cs generalizing s with
  | nil => rfl
  | cons c cs ih =>
    obtain ⟨⟨cmd, tail, hc, hbody⟩, hcs⟩ := List.forall_mem_cons.mp h
    have hdec : decodeFrame c = .ok (frameOf cmd tail) := decodeFrame_ok_iff.mpr ⟨cmd, tail, hc, hbody, rfl⟩
    have hexec : exec (frameOf cmd tail) s = .next (closed c s) := by
      rw [(exec_frame (frameOf cmd tail) s (by simp [Instr.isRequest])).1, encode_frameOf, hc]
    simp only [runFrames, hdec, hexec]
    exact ih hcs _

/-- What the survivors' frames leave behind fresh working elements. -/
theorem closeAll_surviving {s : State} (hf : s.Fresh) (buf : List Byte) :
    (closeAll (surviving buf) s).ncand = BitVec.ofNat 16 (surviving buf).length ∧
    (closeAll (surviving buf) s).resp = candTokens 0 (surviving buf) := by
  have hs : survivors (surviving buf) = surviving buf := by simp [surviving]
  rw [closeAll_eq _ s 0 hf.ncand, hs, Nat.zero_add, hf.resp, List.nil_append]
  exact ⟨rfl, rfl⟩

/-! ### Frames sent back to back -/

/-- R75, R89: frames without a marker inside, laid end to end, give each its own token. -/
theorem exec_extract_frames {s : State} {cs : List (List Byte)} (hf : s.Fresh) (hne : cs ≠ [])
    (hcs : ∀ c ∈ cs, ∃ cmd tail, c = wireFrame cmd tail ∧ hasMarker (cmd :: tail) = false)
    (hb : cs.flatten.length ≤ Config.bufMax) :
    ∃ t, exec (.extract cs.flatten) s = .next t ∧
      t.resp = candTokens 0 cs ++ [.endTok .ok (BitVec.ofNat 16 cs.length) 0#16 0#8] := by
  have hs : surviving cs.flatten = cs := surviving_flatten fun c hc => by
    obtain ⟨cmd, tail, rfl, hm⟩ := hcs c hc
    exact ⟨isCandidate_wireFrame hm, by simp [wireFrame]⟩
  obtain ⟨t, ht, hresp⟩ := exec_extract_response hf hb
  rw [extractResponse_of_ne_nil (hs.symm ▸ hne), hs] at hresp
  exact ⟨t, ht, hresp⟩

/-- R51: a well-formed wire-frame row is written as a marker with a legal body behind it. -/
theorem encode_eq_wireFrame {i : Instr} (hi : i.space = .frame) (hwf : i.wellFormed = true) :
    ∃ cmd tail, encode i = wireFrame cmd tail ∧ frameBody cmd tail = true := by
  rcases decodeIn_cases (Proofs.decodeEncodeRoundTrip i hwf) with ⟨hspace, -⟩ | ⟨-, cmd, tail, hbody, henc, -⟩
  · rw [hi] at hspace
    cases hspace
  · exact ⟨cmd, tail, henc, hbody⟩

/-- R53: the two known command bytes. -/
theorem kindOf_known {cmd : Byte} (h : cmd = 0x52#8 ∨ cmd = 0x7C#8) :
    kindOf cmd = some (if cmd = 0x52#8 then .cfg else .rt) := by
  rcases h with rfl | rfl <;> rfl

end Sys2Proof.Machine

namespace Sys2Proof.Proofs

open Sys2Proof Sys2Proof.Machine

/-- Settles O8: the detector computes R72's functions (`exec_extract_core`), and the rest is `keeps_execExtract`. -/
theorem extractGivesResponse : Obligations.ExtractGivesResponse := by
  unfold Obligations.ExtractGivesResponse
  intro s buf hf hb
  obtain ⟨t, ht, hpos, hcore⟩ := exec_extract_core hf hb
  obtain ⟨hop, hbad, hbuf, hnrecv, hovf, hnrec, hout, hrom, hhost, hdel, -⟩ := keeps_execExtract buf s t ht
  exact ⟨t, ht, (congrArg State.resp hcore :), (congrArg State.mode hcore :), hpos, (congrArg State.ncand hcore :),
    (congrArg State.endStatus hcore :), (congrArg State.endAux hcore :), hop, hbad, hbuf, hnrecv, hovf, hnrec, hout,
    hrom, hhost, hdel, fun a => by rw [hbuf]⟩

/-- Settles O9: the tokens are `candTokens`, and no index or count wraps (`toNat_ofNat_of_le_surviving_length`). -/
theorem extractNumbersSurvivors : Obligations.ExtractNumbersSurvivors := by
  unfold Obligations.ExtractNumbersSurvivors
  intro s buf hf hb hne
  obtain ⟨t, ht, hresp⟩ := exec_extract_response hf hb
  rw [extractResponse_of_ne_nil hne] at hresp
  have hlen := candTokens_length 0 (surviving buf)
  have hcount := toNat_ofNat_of_le_surviving_length hb le_rfl
  refine ⟨t, _, _, ht, hresp, hlen, hcount.trans hlen.symm, fun k c hk => ⟨?_, ?_⟩⟩
  · rw [candTokens_getElem?, hk, Option.map_some, Nat.zero_add]
  · obtain ⟨hklt, -⟩ := List.getElem?_eq_some_iff.mp hk
    have hidx := toNat_ofNat_of_le_surviving_length hb hklt.le
    rcases candToken_idx k c with ⟨cmd, kind, plen, payload, x, y, e⟩ | ⟨st, cmd, clen, e⟩
    · exact .inl ⟨_, cmd, kind, plen, payload, x, y, e, hidx⟩
    · exact .inr ⟨_, st, cmd, clen, e, hidx⟩

/-- Settles O10: survivors decode (`surviving_eq_wireFrame`), and running them closes each in turn (`runFrames_eq`). -/
theorem extractRunsItsFrames : Obligations.ExtractRunsItsFrames := by
  unfold Obligations.ExtractRunsItsFrames
  intro s buf hf hb
  have hframes : ∀ c ∈ surviving buf, ∃ cmd tail, c = wireFrame cmd tail ∧ frameBody cmd tail = true :=
    fun c hc => surviving_eq_wireFrame hb hc
  constructor
  · intro c hc
    obtain ⟨cmd, tail, rfl, hbody⟩ := hframes c hc
    exact ⟨frameOf cmd tail, decodeFrame_ok_iff.mpr ⟨cmd, tail, rfl, hbody, rfl⟩, encode_frameOf cmd tail,
      (frameOf_wellFormed cmd tail).trans hbody⟩
  · obtain ⟨t, ht, -, hcore⟩ := exec_extract_core hf hb
    have htn : t.ncand = BitVec.ofNat 16 (surviving buf).length := (congrArg State.ncand hcore :)
    obtain ⟨st, n, htr⟩ := exec_extract_resp hf ht
    obtain ⟨hun, hur⟩ := closeAll_surviving hf buf
    exact ⟨t, _, .endTok st n 0#16 0#8, ht, runFrames_eq hframes s, htn.trans hun.symm, by rw [htr, hur], rfl⟩

/-- Settles O12: the bytes in front are in no candidate, so the survivors are the same (`surviving_append`). -/
theorem prefixIsDropped : Obligations.PrefixIsDropped := by
  unfold Obligations.PrefixIsDropped
  intro s pre buf hf hb hpre hmeet
  have hbuf : buf.length ≤ Config.bufMax := by
    rw [List.length_append] at hb
    omega
  have hs : surviving (pre ++ buf) = surviving buf := surviving_append hpre (not_and_or.mpr hmeet)
  obtain ⟨t, ht, htr⟩ := exec_extract_response hf hb
  obtain ⟨u, hu, hur⟩ := exec_extract_response hf hbuf
  exact ⟨t, u, ht, hu, by rw [htr, hur, extractResponse_congr hs]⟩

/-- Settles O13: the encodings are frames without a marker inside, laid end to end (`exec_extract_frames`). -/
theorem concatenatedFramesComeOut : Obligations.ConcatenatedFramesComeOut := by
  unfold Obligations.ConcatenatedFramesComeOut
  intro s fs hf hne hfs hb
  rw [List.flatMap_def] at hb ⊢
  rw [← List.length_map (f := encode) (as := fs)]
  refine exec_extract_frames hf (by simpa using hne) (fun c hc => ?_) hb
  obtain ⟨i, hi, rfl⟩ := List.mem_map.mp hc
  obtain ⟨hspace, hwf⟩ := hfs i hi
  obtain ⟨cmd, tail, henc, hbody⟩ := encode_eq_wireFrame hspace hwf
  exact ⟨cmd, tail, henc, ((frameBody_iff cmd tail).mp hbody).1⟩

/-- Settles O14: two frames laid end to end (`exec_extract_frames`), each with the FRAME token of its bytes. -/
theorem backToBackFramesKeepPayloads : Obligations.BackToBackFramesKeepPayloads := by
  unfold Obligations.BackToBackFramesKeepPayloads
  intro s p q c d a b x y hf hc hd hp hq hmp hmq hb kind
  have hbuf : [0xD2#8, 0x03#8, c] ++ p ++ [a, b] ++ [0xD2#8, 0x03#8, d] ++ q ++ [x, y] =
      [wireFrame c (p ++ [a, b]), wireFrame d (q ++ [x, y])].flatten := by simp [wireFrame]
  have hframes : ∀ f ∈ [wireFrame c (p ++ [a, b]), wireFrame d (q ++ [x, y])],
      ∃ cmd tail, f = wireFrame cmd tail ∧ hasMarker (cmd :: tail) = false := by
    exact List.forall_mem_cons.mpr ⟨⟨c, _, rfl, hmp⟩, List.forall_mem_singleton.mpr ⟨d, _, rfl, hmq⟩⟩
  obtain ⟨t, ht, hresp⟩ := exec_extract_frames hf (List.cons_ne_nil _ _) hframes (by simp [wireFrame]; omega)
  refine ⟨t, hbuf ▸ ht, ?_⟩
  rw [hresp, candTokens, candTokens, candTokens, candToken_wireFrame_known 0 hp (kindOf_known hc),
    candToken_wireFrame_known (0 + 1) hq (kindOf_known hd)]
  rfl

end Sys2Proof.Proofs
end

section
/-! Registers and UNPACK (spec/41_register_unpacker.md R91 to R96): the value and the bits of a big-endian register, and
the registers of a payload. -/

namespace Sys2Proof.Machine

/-! ### One register -/

theorem be16_toNat (hi lo : Byte) : (be16 hi lo).toNat = hi.toNat * 256 + lo.toNat := by
  rw [be16, BitVec.toNat_append, ← Nat.shiftLeft_add_eq_or_of_lt lo.isLt, Nat.shiftLeft_eq]

theorem be16_getLsbD (hi lo : Byte) (i : Nat) :
    (be16 hi lo).getLsbD i = if i < 8 then lo.getLsbD i else hi.getLsbD (i - 8) := BitVec.getLsbD_append

/-! ### The registers of a payload -/

theorem regs_getElem?_eq_some {payload : List Byte} {k : Nat} {hi lo : Byte} (hhi : payload[2 * k]? = some hi)
    (hlo : payload[2 * k + 1]? = some lo) : (regs payload)[k]? = some (be16 hi lo) := by
  obtain ⟨-, rfl⟩ := List.getElem?_eq_some_iff.mp hhi
  obtain ⟨hlt, rfl⟩ := List.getElem?_eq_some_iff.mp hlo
  have hk : k < (regs payload).length := by rw [regs_length]; omega
  rw [List.getElem?_eq_getElem hk, regs_getElem payload k hlt]

/-- A byte behind whole registers belongs to none (R93). -/
theorem regs_append_singleton {payload : List Byte} (b : Byte) (h : payload.length % 2 = 0) :
    regs (payload ++ [b]) = regs payload := by
  induction payload using regs.induct with
  | case1 hi lo rest ih =>
    have hrest : rest.length % 2 = 0 := (Nat.add_mod_right rest.length 2).symm.trans h
    exact congrArg (be16 hi lo :: ·) (ih hrest)
  | case2 l hl =>
    match l, hl with
    | [], _ => rfl
    | [_], _ => cases h
    | hi :: lo :: rest, hl => exact absurd rfl (hl hi lo rest)

theorem unpackResponse_congr {p q : List Byte} (h : regs p = regs q) : unpackResponse p = unpackResponse q := by
  rw [unpackResponse, unpackResponse, h]

end Sys2Proof.Machine

namespace Sys2Proof.Proofs

open Sys2Proof Sys2Proof.Machine

/-- Settles O17: RU's loop of guarded reads gives the pure `regs` for every payload (`exec_unpack_eq`). -/
theorem unpackGivesResponse : Obligations.UnpackGivesResponse := exec_unpack_eq

/-- Settles O18: token `k` carries register `k` (`regs_getElem?_eq_some`), a big-endian pair of bytes. -/
theorem registersAreBigEndian : Obligations.RegistersAreBigEndian := by
  unfold Obligations.RegistersAreBigEndian
  intro s payload
  refine ⟨_, (regs payload).mapIdx fun k v => .reg (BitVec.ofNat 16 k) v, exec_unpack_eq s payload, ?_, ?_, ?_⟩
  · rw [unpackResponse, regs_length, List.append_assoc]
  · rw [List.length_mapIdx, regs_length]
  · intro k hi lo hhi hlo
    refine ⟨be16 hi lo, ?_, be16_toNat hi lo, fun i _ => be16_getLsbD hi lo i⟩
    rw [List.getElem?_mapIdx, regs_getElem?_eq_some hhi hlo, Option.map_some]

/-- Settles O19: the payload with the odd byte has the same registers (`regs_append_singleton`). -/
theorem oddByteIsIgnored : Obligations.OddByteIsIgnored := by
  unfold Obligations.OddByteIsIgnored
  intro s payload b heven
  refine ⟨_, _, exec_unpack_eq s (payload ++ [b]), exec_unpack_eq s payload, ?_⟩
  rw [unpackResponse_congr (regs_append_singleton b heven)]

end Sys2Proof.Proofs
end

section
/-! The alarm decoder and the runtime alarm tap (spec/42_alarm_decoder.md R98 to R114): the records of eight alarm bytes,
which of them there are, in what order and how many; ALARM's answer, and RT_ALARM's as a function of its payload bytes 116
to 123. -/

namespace Sys2Proof.Machine

/-! ### The order and the number of the records -/

/-- R101: `a` comes before `a'`. -/
def AlarmRecord.Before (a a' : AlarmRecord) : Prop := a.reg < a'.reg ∨ a.reg = a'.reg ∧ a.bit < a'.bit

/-- The order shows in the 8-bit fields of the tokens, since neither wraps. -/
theorem AlarmRecord.Before.token_fields {a a' : AlarmRecord} (h : a.Before a') :
    (BitVec.ofNat 8 (a.reg.val + 1)).toNat < (BitVec.ofNat 8 (a'.reg.val + 1)).toNat ∨
      BitVec.ofNat 8 (a.reg.val + 1) = BitVec.ofNat 8 (a'.reg.val + 1) ∧
        (BitVec.ofNat 8 a.bit.val).toNat < (BitVec.ofNat 8 a'.bit.val).toNat := by
  have hwrap {n : Nat} (hn : n < 17) : (BitVec.ofNat 8 n).toNat = n := Nat.mod_eq_of_lt (by omega)
  have hreg : a.reg.val < 4 := a.reg.isLt
  have hreg' : a'.reg.val < 4 := a'.reg.isLt
  have hbit : a.bit.val < 16 := a.bit.isLt
  have hbit' : a'.bit.val < 16 := a'.bit.isLt
  rw [hwrap (by omega), hwrap (by omega), hwrap (by omega), hwrap (by omega)]
  exact h.imp Nat.succ_lt_succ (.imp_left fun e => by rw [e])

/-- R101: ascending register identifier, then ascending bit index. -/
theorem alarms_pairwise (rom : AlarmRom) (v : Fin 4 → Reg16) : (alarms rom v).Pairwise AlarmRecord.Before := by
  refine List.pairwise_flatMap.mpr ⟨fun r _ => ?_, (List.pairwise_lt_finRange 4).imp fun {r r'} hr => ?_⟩
  · exact ((List.pairwise_lt_finRange 16).filter _).map _ fun b b' hb => .inr ⟨rfl, hb⟩
  · intro a ha a' ha'
    obtain ⟨b, -, rfl⟩ := List.mem_map.mp ha
    obtain ⟨b', -, rfl⟩ := List.mem_map.mp ha'
    exact .inl hr

/-- R102: a record for every set bit. -/
theorem alarms_length (rom : AlarmRom) (v : Fin 4 → Reg16) :
    (alarms rom v).length = ((List.ofFn v).map fun w => (List.range 16).countP fun i => w.getLsbD i).sum := by
  have hlane (w : Reg16) : ((List.finRange 16).filter fun b => w.getLsbD b.val).length =
      (List.range 16).countP fun i => w.getLsbD i := by
    rw [← List.countP_eq_length_filter, ← List.map_coe_finRange_eq_range, List.countP_map]
    rfl
  rw [List.ofFn_eq_map, List.map_map, alarms, List.length_flatMap]
  simp only [List.length_map, hlane, Function.comp_def]

/-- R99: one set bit gives one record. -/
theorem alarms_twoPow (rom : AlarmRom) (r : Fin 4) (b : Fin 16) :
    alarms rom (fun k => if k = r then BitVec.twoPow 16 b.val else 0#16) = [alarmRecord rom r b] := by
  have hone {n : Nat} (a : Fin n) : (List.finRange n).filter (· = a) = [a] := by
    rw [List.filter_eq, List.count_eq_one_of_mem (List.nodup_finRange n) (List.mem_finRange a), List.replicate_one]
  have hlane (k : Fin 4) : (((List.finRange 16).filter fun i =>
      (if k = r then BitVec.twoPow 16 b.val else 0#16).getLsbD i.val).map (alarmRecord rom k)) =
        if decide (k = r) then [alarmRecord rom k b] else [] := by
    by_cases hk : k = r
    · simp [hk, ← Fin.ext_iff, hone]
    · simp [hk]
  calc alarms rom (fun k => if k = r then BitVec.twoPow 16 b.val else 0#16)
      = (List.finRange 4).flatMap fun k => if decide (k = r) then [alarmRecord rom k b] else [] :=
        congrArg (List.flatMap · (List.finRange 4)) (funext hlane)
    _ = [alarmRecord rom r b] := by rw [flatMap_ite_singleton, hone, List.map_singleton]

/-! ### The records of eight alarm bytes -/

/-- The four alarm registers of ALARM's data, in register-identifier order (R57). -/
def alarmValues (data : List Byte) (r : Fin 4) : Reg16 := (regs data).getD r.val 0#16

/-- The records of ALARM's data, as the tokens that the response carries. -/
def alarmTokens (rom : AlarmRom) (data : List Byte) : List Token :=
  (alarms rom (alarmValues data)).map AlarmRecord.token

theorem alarmTokens_length_le (rom : AlarmRom) (data : List Byte) : (alarmTokens rom data).length ≤ 64 := by
  rw [alarmTokens, List.length_map]
  exact alarms_length_le rom _

theorem alarmTokens_are_alarmRec {rom : AlarmRom} {data : List Byte} {tok : Token} (h : tok ∈ alarmTokens rom data) :
    ∃ r b c w, tok = .alarmRec r b c w := by
  obtain ⟨a, -, rfl⟩ := List.mem_map.mp h
  exact ⟨_, _, _, _, rfl⟩

theorem ofFn_alarmValues {data : List Byte} (h : data.length = 8) : List.ofFn (alarmValues data) = regs data := by
  have hlen : (regs data).length = 4 := by rw [regs_length, h]
  refine List.ext_getElem (by simp [hlen]) fun k _ hk => ?_
  rw [List.getElem_ofFn, alarmValues, List.getD_eq_getElem _ _ hk]

theorem alarmValues_eq_be16 {data : List Byte} {r : Fin 4} {hi lo : Byte} (hhi : data[2 * r.val]? = some hi)
    (hlo : data[2 * r.val + 1]? = some lo) : alarmValues data r = be16 hi lo := by
  rw [alarmValues, List.getD_eq_getElem?_getD, regs_getElem?_eq_some hhi hlo, Option.getD_some]

/-- R98, R99, R100: the records are those of the set bits, whatever the ROM's word is. -/
theorem mem_alarmTokens {rom : AlarmRom} {data : List Byte} (h : data.length = 8) (tok : Token) :
    tok ∈ alarmTokens rom data ↔
      ∃ r b hi lo w, r < 4 ∧ b < 16 ∧ data[2 * r]? = some hi ∧ data[2 * r + 1]? = some lo ∧
        (be16 hi lo).getLsbD b = true ∧ rom[r * 16 + (15 - b)]? = some w ∧
        tok = .alarmRec (BitVec.ofNat 8 (r + 1)) (BitVec.ofNat 8 b) (BitVec.ofNat 8 (15 - b)) w := by
  constructor
  · intro htok
    obtain ⟨a, ha, rfl⟩ := List.mem_map.mp htok
    obtain ⟨r, b, hbit, rfl⟩ := (mem_alarms rom _ a).mp ha
    have hhi := List.getElem?_eq_getElem (show 2 * r.val < data.length by omega)
    have hlo := List.getElem?_eq_getElem (show 2 * r.val + 1 < data.length by omega)
    rw [alarmValues_eq_be16 hhi hlo] at hbit
    exact ⟨r, b, _, _, _, r.isLt, b.isLt, hhi, hlo, hbit, alarmRecord_msg rom r b, rfl⟩
  · rintro ⟨r, b, hi, lo, w, hr, hb, hhi, hlo, hbit, hw, rfl⟩
    have hv : alarmValues data ⟨r, hr⟩ = be16 hi lo := alarmValues_eq_be16 hhi hlo
    have hmsg := Option.some.inj ((alarmRecord_msg rom ⟨r, hr⟩ ⟨b, hb⟩).symm.trans hw)
    refine List.mem_map.mpr ⟨alarmRecord rom ⟨r, hr⟩ ⟨b, hb⟩, (mem_alarms rom _ _).mpr ⟨_, _, ?_, rfl⟩, ?_⟩
    · rw [hv]; exact hbit
    · rw [← hmsg]; rfl

theorem alarmTokens_of_zero {rom : AlarmRom} {data : List Byte} (h : data.length = 8)
    (hz : ∀ b ∈ data, b = 0#8) : alarmTokens rom data = [] := by
  refine List.eq_nil_iff_forall_not_mem.mpr fun tok htok => ?_
  obtain ⟨r, b, hi, lo, w, -, -, hhi, hlo, hbit, -⟩ := (mem_alarmTokens h tok).mp htok
  rw [hz hi (List.mem_of_getElem? hhi), hz lo (List.mem_of_getElem? hlo), be16_getLsbD] at hbit
  simp at hbit

/-- R101 for the tokens. -/
theorem alarmTokens_pairwise (rom : AlarmRom) (data : List Byte) :
    (alarmTokens rom data).Pairwise fun x y => ∃ r b c w r' b' c' w', x = .alarmRec r b c w ∧ y = .alarmRec r' b' c' w' ∧
      (r.toNat < r'.toNat ∨ r = r' ∧ b.toNat < b'.toNat) :=
  (alarms_pairwise rom _).map _ fun a a' h => ⟨_, _, _, _, _, _, _, _, rfl, rfl, h.token_fields⟩

/-- R102 for the data's four registers. -/
theorem alarmTokens_length {rom : AlarmRom} {data : List Byte} (h : data.length = 8) :
    (alarmTokens rom data).length =
      ((regs data).map fun v => (List.range 16).countP fun i => v.getLsbD i).sum := by
  rw [alarmTokens, List.length_map, alarms_length, ofFn_alarmValues h]

/-! ### Data made of registers -/

theorem regs_flatMap_be16Bytes {α : Type} (f : α → Reg16) (l : List α) :
    regs (l.flatMap fun a => be16Bytes (f a)) = l.map f := by
  induction l with
  | nil => rfl
  | cons a as ih =>
    calc regs (be16Bytes (f a) ++ as.flatMap fun a => be16Bytes (f a))
        = be16 ((f a).extractLsb' 8 8) ((f a).extractLsb' 0 8) :: regs (as.flatMap fun a => be16Bytes (f a)) := rfl
      _ = (a :: as).map f := by rw [be16_extract, ih, List.map_cons]

/-- The data of an ALARM request of which only bit `b` of register `r + 1` is set. -/
def singleBitData (r b : Nat) : List Byte :=
  (List.range 4).flatMap fun k => be16Bytes (if k = r then BitVec.twoPow 16 b else 0#16)

theorem singleBitData_length (r b : Nat) : (singleBitData r b).length = 8 := rfl

theorem alarmTokens_singleBitData (rom : AlarmRom) (r : Fin 4) (b : Fin 16) :
    alarmTokens rom (singleBitData r.val b.val) = [(alarmRecord rom r b).token] := by
  have hv : alarmValues (singleBitData r.val b.val) =
      fun k => if k = r then BitVec.twoPow 16 b.val else 0#16 := by
    funext k
    rw [alarmValues, singleBitData, regs_flatMap_be16Bytes]
    simp [Fin.ext_iff]
  rw [alarmTokens, hv, alarms_twoPow, List.map_singleton]

/-! ### ALARM -/

/-- ALARM's answer: the records, and `END(OK)` with their number, which `nrec` counts too. -/
theorem exec_alarm_tokens {s : State} {data : List Byte} (h : data.length = 8) (hn : s.nrec = 0#16) :
    ∃ t, exec (.alarm data) s = .next t ∧ t.nrec = BitVec.ofNat 16 (alarmTokens s.rom data).length ∧
      t.resp = s.resp ++ alarmTokens s.rom data ++ [.endTok .ok t.nrec 0#16 0#8] := by
  have hresp : alarmResponse s.rom data = alarmTokens s.rom data ++
      [.endTok .ok (BitVec.ofNat 16 (alarmTokens s.rom data).length) 0#16 0#8] := by
    rw [alarmTokens, List.length_map]
    exact if_pos h
  refine ⟨_, exec_alarm_of_length_eq s h hn, ?_, ?_⟩ <;> simp [hresp]

/-- ALARM with one bit set gives its one record. -/
theorem exec_alarm_singleBit {s : State} {r b : Nat} (hr : r < 4) (hb : b < 16) (hn : s.nrec = 0#16) :
    ∃ t w, exec (.alarm (singleBitData r b)) s = .next t ∧ s.rom[r * 16 + (15 - b)]? = some w ∧
      t.resp = s.resp ++ [.alarmRec (BitVec.ofNat 8 (r + 1)) (BitVec.ofNat 8 b) (BitVec.ofNat 8 (15 - b)) w,
        .endTok .ok 1#16 0#16 0#8] := by
  obtain ⟨t, ht, hnrec, hresp⟩ := exec_alarm_tokens (singleBitData_length r b) hn
  rw [alarmTokens_singleBitData s.rom ⟨r, hr⟩ ⟨b, hb⟩] at hnrec hresp
  refine ⟨t, _, ht, alarmRecord_msg s.rom ⟨r, hr⟩ ⟨b, hb⟩, ?_⟩
  rw [hresp, hnrec, List.append_assoc]
  rfl

/-! ### RT_ALARM -/

/-- The bytes of registers 58 to 61 of a runtime payload (R111). -/
def alarmBytes (payload : List Byte) : List Byte := (payload.drop 116).take 8

theorem alarmBytes_length {payload : List Byte} (h : 62 ≤ payload.length / 2) : (alarmBytes payload).length = 8 := by
  rw [alarmBytes, List.length_take, List.length_drop]
  omega

theorem getElem?_eq_some_getD {bytes : List Byte} {k : Nat} (h : k < bytes.length) :
    bytes[k]? = some (bytes.getD k 0#8) := by
  rw [List.getElem?_eq_getElem h, List.getD_eq_getElem _ _ h]

theorem alarmBytes_getElem? {payload : List Byte} (h : 62 ≤ payload.length / 2) {k : Nat} (hk : k < 8) :
    (alarmBytes payload)[k]? = some (payload.getD (116 + k) 0#8) := by
  rw [alarmBytes, List.getElem?_take_of_lt hk, List.getElem?_drop, getElem?_eq_some_getD (by omega)]

theorem alarmValues_alarmBytes {payload : List Byte} (h : 62 ≤ payload.length / 2) (r : Fin 4) :
    alarmValues (alarmBytes payload) r =
      be16 (payload.getD (116 + 2 * r.val) 0#8) (payload.getD (116 + (2 * r.val + 1)) 0#8) :=
  alarmValues_eq_be16 (alarmBytes_getElem? h (by omega)) (alarmBytes_getElem? h (by omega))

/-- R111: the alarm registers that RT_ALARM reads are those of bytes 116 to 123. -/
theorem alarmRegs_eq_alarmValues {payload : List Byte} (h : 62 ≤ payload.length / 2) :
    ![alarmReg (regs payload) 1, alarmReg (regs payload) 2, alarmReg (regs payload) 3, alarmReg (regs payload) 4] =
      alarmValues (alarmBytes payload) := by
  rw [alarmRegs_eq]
  funext r
  have hr : r.val < 4 := r.isLt
  have hhi : payload[2 * (58 + r.val)]? = some (payload.getD (116 + 2 * r.val) 0#8) := by
    rw [Nat.mul_add]
    exact getElem?_eq_some_getD (by omega)
  have hlo : payload[2 * (58 + r.val) + 1]? = some (payload.getD (116 + (2 * r.val + 1)) 0#8) := by
    rw [Nat.mul_add, Nat.add_assoc]
    exact getElem?_eq_some_getD (by omega)
  rw [alarmValues_alarmBytes h, List.getD_eq_getElem?_getD, regs_getElem?_eq_some hhi hlo, Option.getD_some]

/-- The ALARM_RAW token of the four alarm registers (R112). -/
def alarmRawToken (data : List Byte) : Token :=
  .alarmRaw (alarmValues data 0) (alarmValues data 1) (alarmValues data 2) (alarmValues data 3)

theorem alarmRawToken_alarmBytes {payload : List Byte} (h : 62 ≤ payload.length / 2) :
    alarmRawToken (alarmBytes payload) = .alarmRaw (be16 (payload.getD 116 0#8) (payload.getD 117 0#8))
      (be16 (payload.getD 118 0#8) (payload.getD 119 0#8)) (be16 (payload.getD 120 0#8) (payload.getD 121 0#8))
      (be16 (payload.getD 122 0#8) (payload.getD 123 0#8)) := by
  simp only [alarmRawToken, alarmValues_alarmBytes h]
  rfl

/-- RT_ALARM's answer at the floor and above, from any state: of the payload it depends on bytes 116 to 123 and on the
number of registers only. -/
theorem exec_rtAlarm_tokens (s : State) {payload : List Byte} (h : 62 ≤ payload.length / 2) :
    ∃ t, exec (.rtAlarm payload) s = .next t ∧
      t.nrec = s.nrec + BitVec.ofNat 16 (alarmTokens s.rom (alarmBytes payload)).length ∧
      t.resp = s.resp ++ [alarmRawToken (alarmBytes payload)] ++ alarmTokens s.rom (alarmBytes payload) ++
        [.endTok .ok t.nrec (BitVec.ofNat 16 (payload.length / 2)) (endFlags (truncWarn (payload.length / 2)))] := by
  have hregs := alarmRegs_eq_alarmValues h
  have hraw : Token.alarmRaw (alarmReg (regs payload) 1) (alarmReg (regs payload) 2) (alarmReg (regs payload) 3)
      (alarmReg (regs payload) 4) = alarmRawToken (alarmBytes payload) := by
    rw [alarmRawToken, ← hregs]
    rfl
  have hrecs : decodeAlarms s.rom (alarmReg (regs payload) 1) (alarmReg (regs payload) 2) (alarmReg (regs payload) 3)
      (alarmReg (regs payload) 4) = .ok (alarmTokens s.rom (alarmBytes payload)) := by
    rw [decodeAlarms_eq, hregs, alarmTokens]
  simp only [exec, execRtAlarm, readRegs_eq, regs_length, Config.rtMinRegs, Nat.not_lt.mpr h, if_false, hrecs, hraw,
    bind, Except.bind, pure, Except.pure, outcomeOf_ok]
  exact ⟨_, rfl, rfl, rfl⟩

end Sys2Proof.Machine

namespace Sys2Proof.Proofs

open Sys2Proof Sys2Proof.Machine

/-- Settles O20: AD's lane loop gives the pure `alarms` (`exec_alarm_of_length_eq`). -/
theorem alarmGivesResponse : Obligations.AlarmGivesResponse := by
  unfold Obligations.AlarmGivesResponse
  exact fun s _ h8 hn => exec_alarm_of_length_eq s h8 hn

/-- Settles O21: any other length raises `BadRequest` before a byte is read. -/
theorem alarmRejectsOtherLengths : Obligations.AlarmRejectsOtherLengths := by
  unfold Obligations.AlarmRejectsOtherLengths
  exact fun s _ h8 => exec_alarm_of_length_ne s h8

/-- Settles O22: the records are those of the set bits (`mem_alarmTokens`), in order (`alarmTokens_pairwise`). -/
theorem alarmRecordsAreSetBits : Obligations.AlarmRecordsAreSetBits := by
  unfold Obligations.AlarmRecordsAreSetBits
  intro s data h8 hn
  obtain ⟨t, ht, hnrec, hresp⟩ := exec_alarm_tokens h8 hn
  rw [hnrec] at hresp
  exact ⟨t, _, ht, hresp, mem_alarmTokens h8, alarmTokens_pairwise s.rom data⟩

/-- Settles O23: a lane gives a record exactly where its bit is set (`alarms_length`), and 64 lanes fit `nrec`. -/
theorem alarmCountIsPopcount : Obligations.AlarmCountIsPopcount := by
  unfold Obligations.AlarmCountIsPopcount
  intro s data h8 hn
  obtain ⟨t, ht, hnrec, hresp⟩ := exec_alarm_tokens h8 hn
  have hle := alarmTokens_length_le s.rom data
  have hcount : t.nrec.toNat = (alarmTokens s.rom data).length := by
    rw [hnrec, BitVec.toNat_ofNat]
    exact Nat.mod_eq_of_lt (by omega)
  exact ⟨t, _, ht, hresp, fun _ => alarmTokens_are_alarmRec, hcount, hle, alarmTokens_length h8, alarmTokens_of_zero h8⟩

/-- Settles O24: the other lanes are clear, so the one record is that of bit `b` (`alarms_twoPow`). -/
theorem singleBitInverts : Obligations.SingleBitInverts := by
  unfold Obligations.SingleBitInverts
  exact fun _ _ _ hr hb hn => exec_alarm_singleBit hr hb hn

/-- Settles O25: each of the three requests sets one bit, and the ROM's word at the inverted index is a pinned one. -/
theorem pinnedMessagesAreDelivered : Obligations.PinnedMessagesAreDelivered := by
  unfold Obligations.PinnedMessagesAreDelivered
  intro s hrom hn
  obtain ⟨h10, h115, h26⟩ := hrom
  refine ⟨?_, ?_, ?_⟩
  · obtain ⟨t, w, ht, hw, hresp⟩ := exec_alarm_singleBit (r := 0) (b := 15) (by omega) (by omega) hn
    exact ⟨t, w, ht, hresp, by cases hw; exact h10⟩
  · obtain ⟨t, w, ht, hw, hresp⟩ := exec_alarm_singleBit (r := 0) (b := 0) (by omega) (by omega) hn
    exact ⟨t, w, ht, hresp, by cases hw; exact h115⟩
  · obtain ⟨t, w, ht, hw, hresp⟩ := exec_alarm_singleBit (r := 1) (b := 9) (by omega) (by omega) hn
    exact ⟨t, w, ht, hresp, by cases hw; exact h26⟩

/-- Settles O26: below the floor RT_ALARM has read its registers and raises `InsufficientData` with their number. -/
theorem rtAlarmNeedsFloor : Obligations.RtAlarmNeedsFloor := by
  unfold Obligations.RtAlarmNeedsFloor
  exact fun s _ h => exec_rtAlarm_of_short s h

/-- Settles O27: the guarded reads of R111 are in range at the floor and above (`exec_rtAlarm_of_full`). -/
theorem rtAlarmGivesResponse : Obligations.RtAlarmGivesResponse := by
  unfold Obligations.RtAlarmGivesResponse
  exact fun s _ h hn => exec_rtAlarm_of_full s h hn

/-- Settles O28: the answer is a function of the alarm bytes and the register count (`exec_rtAlarm_tokens`). -/
theorem rtAlarmReadsAlarmBytesOnly : Obligations.RtAlarmReadsAlarmBytesOnly := by
  unfold Obligations.RtAlarmReadsAlarmBytesOnly
  intro s p q hp hlen hbytes
  obtain ⟨t, ht, htn, htr⟩ := exec_rtAlarm_tokens s hp
  obtain ⟨u, hu, hun, hur⟩ := exec_rtAlarm_tokens s (hlen ▸ hp)
  have hpq : alarmBytes p = alarmBytes q := hbytes
  have hresp : t.resp = u.resp := by rw [htr, hur, htn, hun, hpq, hlen]
  rw [alarmRawToken_alarmBytes hp, List.append_assoc, List.append_assoc, List.singleton_append] at htr
  exact ⟨t, u, _, ht, hu, hresp, htr⟩

/-- Settles O29: both answers hold the records of the alarm bytes (`exec_rtAlarm_tokens`, `exec_alarm_tokens`). -/
theorem rtAlarmAgreesWithAlarm : Obligations.RtAlarmAgreesWithAlarm := by
  unfold Obligations.RtAlarmAgreesWithAlarm
  intro s payload h hn
  obtain ⟨t, ht, htn, htr⟩ := exec_rtAlarm_tokens s h
  obtain ⟨u, hu, hun, hur⟩ := exec_alarm_tokens (alarmBytes_length h) hn
  refine ⟨t, u, _, _, _, _, _, _, _, ht, hu, htr, hur, fun _ => alarmTokens_are_alarmRec, ?_, rfl, rfl⟩
  rw [htn, hun, hn, BitVec.zero_add]

end Sys2Proof.Proofs
end

section
/-! What leads out of IDLE (spec/60_exceptions.md R134): a header from the host and nothing else. -/

namespace Sys2Proof.Machine

/-- In IDLE the block holds, so no step of its own leaves the phase. -/
theorem blockStep_stays_idle {s t : State} (hm : s.mode = .idle) (h : blockStep s = .next t) : t.mode = .idle := by
  rw [blockStep_holds (.inl hm)] at h
  cases h
  exact hm

/-- A byte is accepted in IDLE only where `out` is empty (log entry 5). -/
theorem out_eq_none_of_accepts_idle {s : State} (hm : s.mode = .idle) (ha : s.accepts = true) : s.out = none := by
  rcases accepts_cases ha with ⟨-, ho⟩ | hl
  · exact ho
  · cases hm.symm.trans hl

end Sys2Proof.Machine

namespace Sys2Proof.Proofs

open Sys2Proof Sys2Proof.Machine

/-- Settles O43: of what a step can do (`step_cases`), a reset, the consumption of a token and the block's own step end
in IDLE again, and the transfer that is left is a header's. -/
theorem onlyHeaderLeavesIdle : Obligations.OnlyHeaderLeavesIdle := by
  unfold Obligations.OnlyHeaderLeavesIdle
  intro s t h hm hleaves
  rcases step_cases h with ⟨x, ms, hh, ha, ht⟩ | ⟨ms, -, rfl⟩ | ⟨k, ms, -, -, rfl⟩ | ⟨ms, -, hb⟩ | ⟨-, hb⟩
  · rw [acceptXfer_idle (s := { s with host := ms }) hm] at ht
    exact ⟨x, ms, hh, out_eq_none_of_accepts_idle hm ha, ht⟩
  · exact absurd rfl hleaves
  · exact absurd hm hleaves
  · exact absurd (blockStep_stays_idle (s := { s with host := ms }) hm hb) hleaves
  · exact absurd (blockStep_stays_idle hm hb) hleaves

end Sys2Proof.Proofs
end

section
/-! A reset abandons the request (spec/70_reset_and_hazards.md R136, R137): behind it the state is a cleared one, which is
in IDLE with `out` empty, where a byte is a header. -/

namespace Sys2Proof.Proofs

open Sys2Proof Sys2Proof.Machine

/-- Settles O2: the step is `clearWork` (`step_reset`), and in the cleared state a byte is accepted as a header. -/
theorem resetAbandonsRequest : Obligations.ResetAbandonsRequest := by
  unfold Obligations.ResetAbandonsRequest
  intro s ms hh
  refine ⟨{ s with host := ms }.clearWork, step_reset hh, rfl, ?_⟩
  rintro x ms' rfl
  have hheader := step_send_header (s := { s with host := .send x :: ms' }.clearWork) (x := x) (ms := ms') rfl rfl rfl
  exact ⟨_, hheader, rfl, rfl, rfl, rfl, rfl⟩

end Sys2Proof.Proofs
end
